-- ==== Sys2Proof/Word.lean ====
section
/-! DEFINITION. The words of the block: the 32-bit payload, register and response word, and the 35-bit command word
(00_scope.md R7, R9; 30_encoding.md R71). -/

namespace Sys2Proof

/-- A 32-bit word: a payload word (`W_IN`, R7), a register view (R35) or a response field (R78). -/
abbrev Word := BitVec 32

/-- A 35-bit command word `{op[34:32], arg[31:0]}` (30_encoding.md R71). -/
abbrev Command := BitVec 35

/-- One payload byte (20_memory.md R52). -/
abbrev Byte := BitVec 8

end Sys2Proof
end

