-- ==== Sys2Proof/Syntax.lean ====
section
/-! DEFINITION. The command set: one constructor of `Instr` per row of opcode_table.json, its fields those of the row
(30_encoding.md R72 to R77), and the three payload formats (R75). -/

namespace Sys2Proof

/-- The payload formats: DIRECT, BFP_9_5 and BFP_12_6, and no other (00_scope.md R2, 30_encoding.md R75). -/
inductive Format where
  | direct
  | bfp95
  | bfp126
deriving DecidableEq, Repr

/-- The commands. A field the spec calls ignored or reserved is kept, because an error records the whole `arg`
(60_exceptions.md R162). -/
inductive Instr where
  /-- NOP: `arg` is ignored (40_control.md R101). -/
  | nop (arg : Word)
  /-- RESET: `arg` is ignored (40_control.md R102). -/
  | reset (arg : Word)
  /-- CONFIG: `arg[31:16]` reserved, `arg[15:8]` bandwidth, `arg[7:4]` reserved, `arg[3:0]` format (30_encoding.md R74). -/
  | config (rsvHi : BitVec 16) (bw : BitVec 8) (rsvLo : BitVec 4) (fmt : BitVec 4)
  /-- PUSH while `CFG.FMT = 0`: the payload word (41_direct.md R120). -/
  | pushDirect (w : Word)
  /-- PUSH while `CFG.FMT = 1`: the payload word (42_bfp.md R135). -/
  | pushBfp95 (w : Word)
  /-- PUSH while `CFG.FMT = 2`: the payload word (42_bfp.md R136). -/
  | pushBfp126 (w : Word)
  /-- READ: `arg[31:8]` reserved, `arg[7:0]` the register number (30_encoding.md R76). -/
  | read (rsv : BitVec 24) (n : BitVec 8)
  /-- The reserved operation 5 (40_control.md R108). -/
  | reserved5 (arg : Word)
  /-- The reserved operations 6 and 7, which one row matches; `low` is bit 32 of the word (40_control.md R108). -/
  | reserved67 (low : BitVec 1) (arg : Word)
deriving DecidableEq, Repr

end Sys2Proof
end

