-- ==== Sys2Proof/Decode.lean ====
section
/-! DEFINITION. The command decoder, total on all 35-bit words (30_encoding.md R88), and the encoder, both from R71 to R77; then
the table of opcode_table.json as data and the host's reading of a table word. -/

namespace Sys2Proof

/-- Why a word is rejected. -/
inductive DecodeError where
  /-- A PUSH whose `CFG.FMT` names no format. No reachable state has such a `CFG.FMT` (10_state.md R36): log entry 4. -/
  | noFormat (fmt : BitVec 4)
deriving DecidableEq, Repr

/-- The format a 4-bit format code names; 3 to 15 name none (30_encoding.md R75). -/
def Format.ofCode (fmt : BitVec 4) : Option Format :=
  if fmt = 0#4 then some .direct
  else if fmt = 1#4 then some .bfp95
  else if fmt = 2#4 then some .bfp126
  else none

/-- The code of a format (30_encoding.md R75). -/
def Format.code : Format → BitVec 4
  | .direct => 0#4
  | .bfp95 => 1#4
  | .bfp126 => 2#4

/-- `nsub(bw)`: the subcarrier count of a legal bandwidth in MHz, none for any other (10_state.md R27, 30_encoding.md R74). -/
def nsubOf (bw : BitVec 8) : Option (BitVec 16) :=
  if bw = 20#8 then some 64#16
  else if bw = 40#8 then some 128#16
  else if bw = 80#8 then some 256#16
  else if bw = 160#8 then some 512#16
  else none

/-- The `op` field, bits 34:32 (30_encoding.md R71). -/
def Command.op (cmd : Command) : BitVec 3 := BitVec.extractLsb' 32 3 cmd

/-- The `arg` field, bits 31:0 (30_encoding.md R71). -/
def Command.arg (cmd : Command) : Word := BitVec.extractLsb' 0 32 cmd

/-- The word `{op, arg}` (30_encoding.md R71). -/
def Command.mk (op : BitVec 3) (arg : Word) : Command := op ++ arg

/-- The `arg` of a CONFIG from its fields (30_encoding.md R74). -/
def configArg (rsvHi : BitVec 16) (bw : BitVec 8) (rsvLo fmt : BitVec 4) : Word := rsvHi ++ bw ++ rsvLo ++ fmt

/-- The `arg` of a READ from its fields (30_encoding.md R76). -/
def readArg (rsv : BitVec 24) (n : BitVec 8) : Word := rsv ++ n

/-- The CONFIG whose `arg` is given (30_encoding.md R74). -/
def decodeConfig (arg : Word) : Instr :=
  .config (BitVec.extractLsb' 16 16 arg) (BitVec.extractLsb' 8 8 arg) (BitVec.extractLsb' 4 4 arg) (BitVec.extractLsb' 0 4 arg)

/-- The READ whose `arg` is given (30_encoding.md R76). -/
def decodeRead (arg : Word) : Instr := .read (BitVec.extractLsb' 8 24 arg) (BitVec.extractLsb' 0 8 arg)

/-- The PUSH form that `CFG.FMT` selects for a payload word (30_encoding.md R83). -/
def decodePush (fmt : BitVec 4) (w : Word) : Except DecodeError Instr :=
  match Format.ofCode fmt with
  | some .direct => .ok (.pushDirect w)
  | some .bfp95 => .ok (.pushBfp95 w)
  | some .bfp126 => .ok (.pushBfp126 w)
  | none => .error (.noFormat fmt)

/-- `Decode` of 30_encoding.md R88, with the `CFG.FMT` that selects the PUSH form (R83). -/
def decode (fmt : BitVec 4) (cmd : Command) : Except DecodeError Instr :=
  if Command.op cmd = 0#3 then .ok (.nop (Command.arg cmd))
  else if Command.op cmd = 1#3 then .ok (.reset (Command.arg cmd))
  else if Command.op cmd = 2#3 then .ok (decodeConfig (Command.arg cmd))
  else if Command.op cmd = 3#3 then decodePush fmt (Command.arg cmd)
  else if Command.op cmd = 4#3 then .ok (decodeRead (Command.arg cmd))
  else if Command.op cmd = 5#3 then .ok (.reserved5 (Command.arg cmd))
  else .ok (.reserved67 (BitVec.extractLsb' 0 1 (Command.op cmd)) (Command.arg cmd))

/-- The `op` field of a command (30_encoding.md R72). -/
def Instr.op : Instr → BitVec 3
  | .nop _ => 0#3
  | .reset _ => 1#3
  | .config _ _ _ _ => 2#3
  | .pushDirect _ => 3#3
  | .pushBfp95 _ => 3#3
  | .pushBfp126 _ => 3#3
  | .read _ _ => 4#3
  | .reserved5 _ => 5#3
  | .reserved67 low _ => 3#2 ++ low

/-- The `arg` field of a command (30_encoding.md R74, R76, R77). -/
def Instr.arg : Instr → Word
  | .nop arg => arg
  | .reset arg => arg
  | .config rsvHi bw rsvLo fmt => configArg rsvHi bw rsvLo fmt
  | .pushDirect w => w
  | .pushBfp95 w => w
  | .pushBfp126 w => w
  | .read rsv n => readArg rsv n
  | .reserved5 arg => arg
  | .reserved67 _ arg => arg

/-- The command's 35-bit word (30_encoding.md R71). -/
def encode (i : Instr) : Command := Command.mk i.op i.arg

/-- One row of opcode_table.json: its mnemonic, match, mask and the `CFG.FMT` that selects it, if one does. -/
structure TableRow where
  mnemonic : String
  bits : Command
  mask : Command
  fmt : Option Format
deriving DecidableEq, Repr

/-- opcode_table.json, in its order. -/
def opcodeTable : List TableRow :=
  [ ⟨"NOP", 0x000000000#35, 0x700000000#35, none⟩,
    ⟨"RESET", 0x100000000#35, 0x700000000#35, none⟩,
    ⟨"CONFIG", 0x200000000#35, 0x7FFFF00F0#35, none⟩,
    ⟨"PUSH.DIRECT", 0x300000000#35, 0x700000000#35, some .direct⟩,
    ⟨"PUSH.BFP95", 0x300000000#35, 0x700000000#35, some .bfp95⟩,
    ⟨"PUSH.BFP126", 0x300000000#35, 0x700000000#35, some .bfp126⟩,
    ⟨"READ", 0x400000000#35, 0x7FFFFFF00#35, none⟩,
    ⟨"RESERVED.5", 0x500000000#35, 0x700000000#35, none⟩,
    ⟨"RESERVED.6_7", 0x600000000#35, 0x600000000#35, none⟩ ]

/-- The row matches the word, under the `CFG.FMT` it asks for. -/
def TableRow.covers (row : TableRow) (fmt : BitVec 4) (cmd : Command) : Bool :=
  decide (cmd &&& row.mask = row.bits) && (match row.fmt with | some f => decide (f.code = fmt) | none => true)

/-- The mnemonic of the row a command belongs to. -/
def Instr.mnemonic : Instr → String
  | .nop _ => "NOP"
  | .reset _ => "RESET"
  | .config _ _ _ _ => "CONFIG"
  | .pushDirect _ => "PUSH.DIRECT"
  | .pushBfp95 _ => "PUSH.BFP95"
  | .pushBfp126 _ => "PUSH.BFP126"
  | .read _ _ => "READ"
  | .reserved5 _ => "RESERVED.5"
  | .reserved67 _ _ => "RESERVED.6_7"

/-- The 35-bit command word of a number whose bits above `nbits` are taken as 0; none where a bit above 34 is set, since there is
no longer form (30_encoding.md R71). -/
def tableCommand (nbits w : Nat) : Option Command :=
  if w % 2 ^ nbits < 2 ^ 35 then some (BitVec.ofNat 35 (w % 2 ^ nbits)) else none

/-- The instruction read from a table word. The word alone does not say which PUSH row it is (30_encoding.md R83); it is read as
after reset, where `CFG.FMT` is 0 (10_state.md R37): log entry 3. -/
def decodeTableWord (nbits w : Nat) : Option Instr :=
  match tableCommand nbits w with
  | some cmd =>
    match decode 0#4 cmd with
    | .ok i => some i
    | .error _ => none
  | none => none

end Sys2Proof
end

