-- ==== Sys2Proof/Config.lean ====
section
/-! DEFINITION. What an implementation fixes (00_scope.md R7): the bias, the two named parameters with the value this hardware
takes, and the free values of the port realisation, which the spec leaves open (70_reset_and_hazards.md R200). -/

namespace Sys2Proof

/-- The order in which 4 payload bytes make a word: the parameter `PAYLOAD_BYTE_ORDER` (20_memory.md R53). -/
inductive ByteOrder where
  | le
  | be
deriving DecidableEq, Repr

/-- `PAYLOAD_BYTE_ORDER`: little-endian (00_scope.md R7, 20_memory.md R53, D5). UNVERIFIED, unsafe: log entry 6. -/
def Config.payloadByteOrder : ByteOrder := .le

/-- `BIAS`, the exponent bias of both block-floating-point formats (00_scope.md R7, 42_bfp.md R132). -/
def Config.bias : Nat := 10

/-- `EXP_SIGNED`: whether the exponent field is read as two's complement; the default is false (42_bfp.md R138, D9).
UNVERIFIED, unsafe: log entry 7. -/
def Config.expSigned : Bool := false

/-- `LAT`: the cycles the port waits before it answers its n-th command, any finite number (70_reset_and_hazards.md R199, R200).
A free value: log entry 9. -/
opaque Config.latency : Nat → Nat

/-- The cycles for which the port holds `cmd_ready` low after it accepts its n-th command, any finite number (R200).
A free value: log entry 9. -/
opaque Config.stall : Nat → Nat

/-- How many accepted commands may wait in the port while it still accepts another (R200 fixes none).
A free value: log entry 9. -/
opaque Config.depth : Nat

end Sys2Proof
end

