-- ==== Sys2Proof/Machine/Operands.lean ====
section
/-! DEFINITION. What a payload word says under each format: the two DIRECT halves (41_direct.md R120), the fields of a
block-floating-point word, its signed mantissas, its scale and its two components (42_bfp.md R130 to R133, R138), and the words
the pseudo-instructions make of such fields (30_encoding.md R87). -/

namespace Sys2Proof.Machine

/-- `DirectDecode`: the low half is the real, the high half the imaginary component, each two's complement (41_direct.md R120). -/
def directDecode (w : Word) : Int × Int :=
  ((BitVec.extractLsb' 0 16 w).toInt, (BitVec.extractLsb' 16 16 w).toInt)

/-- The fields of a block-floating-point word (42_bfp.md R130). -/
structure BfpFields where
  exp : Nat
  imMag : Nat
  imS : Bool
  reMag : Nat
  reS : Bool
deriving DecidableEq, Repr

/-- `BfpFields(w, M, E)`: from the least significant bit, the exponent, the imaginary magnitude and sign, the real magnitude and
sign; the bits from `2M+E` up are not read (42_bfp.md R130, R137). -/
def bfpFields (m e : Nat) (w : Word) : BfpFields where
  exp := (BitVec.extractLsb' 0 e w).toNat
  imMag := (BitVec.extractLsb' e (m - 1) w).toNat
  imS := BitVec.getLsbD w (e + m - 1)
  reMag := (BitVec.extractLsb' (e + m) (m - 1) w).toNat
  reS := BitVec.getLsbD w (e + 2 * m - 1)

/-- The signed mantissa: integer negation of the magnitude where the sign bit is set, so that -0 is 0 (42_bfp.md R131). -/
def signedMantissa (sign : Bool) (mag : Nat) : Int :=
  if sign then -(mag : Int) else (mag : Int)

/-- The power of two of a word, `exp + BIAS` with the exponent unsigned (42_bfp.md R132). -/
def bfpScale (exp : Nat) : Nat := exp + Config.bias

/-- `BfpDecode(w, M, E)`: both signed mantissas times the one power of two (42_bfp.md R133). -/
def bfpDecode (m e : Nat) (w : Word) : Int × Int :=
  (signedMantissa (bfpFields m e w).reS (bfpFields m e w).reMag * 2 ^ bfpScale (bfpFields m e w).exp,
   signedMantissa (bfpFields m e w).imS (bfpFields m e w).imMag * 2 ^ bfpScale (bfpFields m e w).exp)

/-- The power of two of a word with exponent field `exp` of `e` bits under the reading that `expSigned` names: two's complement
for `EXP_SIGNED = true`, unsigned otherwise, plus the bias (42_bfp.md R138). -/
def bfpScaleOf (expSigned : Bool) (e exp : Nat) : Int :=
  (if expSigned && decide (2 ^ (e - 1) ≤ exp) then (exp : Int) - 2 ^ e else (exp : Int)) + Config.bias

/-- The word with the given block-floating-point fields and its unused bits 0 (30_encoding.md R80, R87). -/
def bfpWord (m e : Nat) (f : BfpFields) : Word :=
  BitVec.ofNat 32 (f.reS.toNat * 2 ^ (e + 2 * m - 1) + f.reMag * 2 ^ (e + m) + f.imS.toNat * 2 ^ (e + m - 1) + f.imMag * 2 ^ e + f.exp)

/-- The fields fit their widths for the format `(m, e)` (30_encoding.md R80). -/
abbrev BfpFields.fits (m e : Nat) (f : BfpFields) : Prop :=
  f.exp < 2 ^ e ∧ f.imMag < 2 ^ (m - 1) ∧ f.reMag < 2 ^ (m - 1)

/-- The word of a DIRECT pair: the imaginary value in the high half, the real in the low, each in two's complement
(30_encoding.md R87, 41_direct.md R122). -/
def directWord (re im : Int) : Word := BitVec.ofInt 16 im ++ BitVec.ofInt 16 re

end Sys2Proof.Machine
end

