-- ==== Sys2Proof/Machine/Binary32.lean ====
section
/-! DEFINITION. The output number format: the conversion `F32` of an integer (30_encoding.md R84), its reading for the dyadic
rationals of `EXP_SIGNED = true` (42_bfp.md R138), the number a binary32 word stands for, and the two output words of each
format. -/

namespace Sys2Proof.Machine

/-- `F32(v)` (30_encoding.md R84): +0.0 for 0; otherwise the sign, the exponent `p + 127` and the 23 bits below the leading one of
`|v|`. Its domain is R85's: `p ≤ 127` and no bit of `|v|` below the fraction; outside it, see log entry 12. -/
def f32 (v : Int) : Word :=
  if v = 0 then 0#32
  else
    let s : BitVec 1 := if v < 0 then 1#1 else 0#1
    let a := v.natAbs
    let p := a.log2
    let frac := if p ≤ 23 then a * 2 ^ (23 - p) % 2 ^ 23 else a / 2 ^ (p - 23) % 2 ^ 23
    s ++ BitVec.ofNat 8 (p + 127) ++ BitVec.ofNat 23 frac

/-- `F32` of the dyadic rational `m · 2^k`: R84 with `p = floor(log2(|m| · 2^k))` allowed to be negative (42_bfp.md R138). Scaling
by a power of two moves `p` and leaves the fraction bits (log entry 15). -/
def f32Scaled (m k : Int) : Word :=
  if m = 0 then 0#32
  else
    let s : BitVec 1 := if m < 0 then 1#1 else 0#1
    let a := m.natAbs
    let q := a.log2
    let frac := if q ≤ 23 then a * 2 ^ (23 - q) % 2 ^ 23 else a / 2 ^ (q - 23) % 2 ^ 23
    s ++ BitVec.ofInt 8 (q + k + 127) ++ BitVec.ofNat 23 frac

/-- The sign bit of a binary32 word, bit 31 (30_encoding.md R84). -/
def f32Sign (x : Word) : Bool := BitVec.getLsbD x 31

/-- The biased exponent of a binary32 word, bits 30:23 (30_encoding.md R84). -/
def f32Exponent (x : Word) : Nat := (BitVec.extractLsb' 23 8 x).toNat

/-- The fraction of a binary32 word, bits 22:0 (30_encoding.md R84). -/
def f32Fraction (x : Word) : Nat := (BitVec.extractLsb' 0 23 x).toNat

/-- The rational number a binary32 word stands for, where it is +0.0 or a normal number; none for -0.0, subnormals, infinities and
NaN, none of which the block outputs (30_encoding.md R84, R85). -/
def f32Value (x : Word) : Option ℚ :=
  if x = 0#32 then some 0
  else if f32Exponent x = 0 ∨ f32Exponent x = 255 then none
  else some ((if f32Sign x then -1 else 1) * (2 ^ 23 + (f32Fraction x : ℚ)) * 2 ^ ((f32Exponent x : Int) - 150))

/-- The two output words of a DIRECT payload word, real then imaginary (41_direct.md R120). -/
def directOutputs (w : Word) : Word × Word := (f32 (directDecode w).1, f32 (directDecode w).2)

/-- The two output words of a block-floating-point payload word, real then imaginary, under the reading of the exponent that
`expSigned` names (42_bfp.md R133, R138). -/
def bfpOutputs (expSigned : Bool) (m e : Nat) (w : Word) : Word × Word :=
  match expSigned with
  | false => (f32 (bfpDecode m e w).1, f32 (bfpDecode m e w).2)
  | true =>
    (f32Scaled (signedMantissa (bfpFields m e w).reS (bfpFields m e w).reMag) (bfpScaleOf true e (bfpFields m e w).exp),
     f32Scaled (signedMantissa (bfpFields m e w).imS (bfpFields m e w).imMag) (bfpScaleOf true e (bfpFields m e w).exp))

/-- The components and output words of a payload word under a format: the case of PUSH (40_control.md R106). -/
def outputsOf (f : Format) (w : Word) : Word × Word :=
  match f with
  | .direct => directOutputs w
  | .bfp95 => bfpOutputs Config.expSigned 9 5 w
  | .bfp126 => bfpOutputs Config.expSigned 12 6 w

end Sys2Proof.Machine
end

