-- ==== Sys2Proof/Machine/State.lean ====
section
/-! DEFINITION. The architectural state of one block instance (10_state.md R20), the responses (30_encoding.md R78), the error
codes (60_exceptions.md R161), the two streams that join the block to its host, and the state after reset (10_state.md R37). -/

namespace Sys2Proof.Machine

/-- The kinds of response; the codes 5 to 7 never occur (30_encoding.md R78). -/
inductive ResponseKind where
  | none
  | data
  | sample
  | error
  | ignored
deriving DecidableEq, Repr

/-- A response `(kind, d0, d1, d2, d3)` (30_encoding.md R78). -/
structure Response where
  kind : ResponseKind
  d0 : Word
  d1 : Word
  d2 : Word
  d3 : Word
deriving DecidableEq, Repr

/-- The five errors (60_exceptions.md R161). -/
inductive ErrorCode where
  /-- ERR_CMD: a reserved operation, a nonzero reserved bit, a register number above 0x0A. -/
  | cmd
  /-- ERR_DEVICE: a CONFIG format that is none of the three. -/
  | device
  /-- ERR_BW: a CONFIG bandwidth that is none of the four. -/
  | bw
  /-- ERR_NOCFG: a PUSH before any CONFIG. -/
  | noCfg
  /-- ERR_PARTIAL: a CONFIG inside a record. -/
  | partialRecord
deriving DecidableEq, Repr

/-- The architectural state `S`: exactly the components of 10_state.md R20, with their widths; 1-bit components are `Bool`. -/
structure Regs where
  /-- `CFG.CV`, configuration valid (R26). -/
  cfgCv : Bool
  /-- `CFG.FMT`, the format code (R25). -/
  cfgFmt : BitVec 4
  /-- `CFG.BW`, the bandwidth in MHz (R25). -/
  cfgBw : BitVec 8
  /-- `NSUB`, subcarriers per record (R27). -/
  nsub : BitVec 16
  /-- `SC_IDX`, the subcarrier of the next payload word (R28). -/
  scIdx : BitVec 16
  /-- `REC_IDX`, the record of the next payload word (R29). -/
  recIdx : Word
  /-- `OUT_VALID`: a PUSH has succeeded since the last CONFIG or reset (R32). -/
  outValid : Bool
  /-- `OUT_RE`, the real component of the last output (R30). -/
  outRe : Word
  /-- `OUT_IM`, the imaginary component of the last output (R30). -/
  outIm : Word
  /-- `OUT_SC`, the subcarrier of the last output (R31). -/
  outSc : BitVec 16
  /-- `OUT_REC`, the record of the last output (R31). -/
  outRec : Word
  /-- `ERR`, the code of the first error since reset, 0 for none (R33). -/
  err : BitVec 8
  /-- `ERR_OP`, the `op` of the command that raised it (R34). -/
  errOp : BitVec 3
  /-- `ERR_ARG`, the `arg` of the command that raised it (R34). -/
  errArg : Word
deriving DecidableEq, Repr

/-- The value of every component after reset (10_state.md R37, 70_reset_and_hazards.md R191). -/
def Regs.reset : Regs where
  cfgCv := false
  cfgFmt := 0#4
  cfgBw := 0#8
  nsub := 0#16
  scIdx := 0#16
  recIdx := 0#32
  outValid := false
  outRe := 0#32
  outIm := 0#32
  outSc := 0#16
  outRec := 0#32
  err := 0#8
  errOp := 0#3
  errArg := 0#32

/-- What can come to the block between two commands: a command from the host (30_encoding.md R71), or the reset input from the
platform (70_reset_and_hazards.md R190). -/
inductive HostEvent where
  | cmd (w : Command)
  | rst
deriving DecidableEq, Repr

/-- The machine: the architectural state, and the model's own two streams. The command sequence is an input (10_state.md R38), so
`cmdIn` holds what is still to be accepted, next first; `rspOut` holds the responses not yet taken, oldest first.
DESIGN CHOICE, safe: log entry 1. -/
structure State where
  regs : Regs
  cmdIn : List HostEvent
  rspOut : List Response
deriving DecidableEq, Repr

/-- Why a step stops with a fault. An error of the block is no fault: it is a next state (60_exceptions.md R163). -/
inductive Fault where
  /-- Raised by the step alone, for a PUSH while `CFG.FMT` is 3 to 15. Safe: no state that satisfies 10_state.md R36 has such a
  `CFG.FMT`, and reset and every step keep R36 (log entry 4). -/
  | illegalFormat (fmt : BitVec 4)
deriving DecidableEq, Repr

/-- Why a step gives no meaning. -/
inductive Refusal where
  /-- Raised by `exec` alone, for an instruction that has no meaning yet; none is left, so it is never raised. Safe: the machine
  stops where the hardware goes on. -/
  | notModelled (mnemonic : String)
deriving DecidableEq, Repr

/-- The machine after reset: R37, with nothing offered and nothing answered (log entry 1). -/
def State.reset : State where
  regs := Regs.reset
  cmdIn := []
  rspOut := []

end Sys2Proof.Machine
end

