-- ==== Sys2Proof/Machine/Flags.lean ====
section
/-! DEFINITION. The derived views: `STATUS.STATE` (10_state.md R24), the STATUS and CFG words (R23, R25), the register map of READ
(R35), and the codes of errors and response kinds (60_exceptions.md R161, 30_encoding.md R78). -/

namespace Sys2Proof.Machine

/-- The code of an error (60_exceptions.md R161). -/
def ErrorCode.code : ErrorCode → BitVec 8
  | .cmd => 1#8
  | .device => 2#8
  | .bw => 3#8
  | .noCfg => 4#8
  | .partialRecord => 5#8

/-- The code of a response kind (30_encoding.md R78). -/
def ResponseKind.code : ResponseKind → BitVec 3
  | .none => 0#3
  | .data => 1#3
  | .sample => 2#3
  | .error => 3#3
  | .ignored => 4#3

/-- `STATUS.STATE`: 2 in ERROR, else 1 when configured, else 0 (10_state.md R24). -/
def Regs.stateField (r : Regs) : BitVec 2 :=
  if r.err ≠ 0#8 then 2#2 else if r.cfgCv then 1#2 else 0#2

/-- The STATUS view: STATE in 11:10, OUT_VALID in 9, CV in 8, ERR in 7:0 (10_state.md R23). -/
def Regs.status (r : Regs) : Word :=
  BitVec.setWidth 32 (r.stateField ++ BitVec.ofBool r.outValid ++ BitVec.ofBool r.cfgCv ++ r.err)

/-- The CFG view: CV in 31, BW in 15:8, FMT in 3:0, the rest 0 (10_state.md R25). -/
def Regs.cfg (r : Regs) : Word :=
  BitVec.ofBool r.cfgCv ++ 0#15 ++ r.cfgBw ++ 0#4 ++ r.cfgFmt

/-- `RegRead(S, n)`: the eleven register views; a number from 0x0B up has none (10_state.md R35). -/
def regRead (r : Regs) (n : BitVec 8) : Option Word :=
  if n = 0x00#8 then some r.status
  else if n = 0x01#8 then some r.cfg
  else if n = 0x02#8 then some (BitVec.setWidth 32 r.nsub)
  else if n = 0x03#8 then some (BitVec.setWidth 32 r.scIdx)
  else if n = 0x04#8 then some r.recIdx
  else if n = 0x05#8 then some r.outRe
  else if n = 0x06#8 then some r.outIm
  else if n = 0x07#8 then some (BitVec.setWidth 32 r.outSc)
  else if n = 0x08#8 then some r.outRec
  else if n = 0x09#8 then some (BitVec.setWidth 32 r.errOp)
  else if n = 0x0A#8 then some r.errArg
  else none

/-- The level `err` of the port (60_exceptions.md R167). -/
def Regs.errLine (r : Regs) : Bool := decide (r.err ≠ 0#8)

end Sys2Proof.Machine
end

