-- ==== Sys2Proof/Machine/Ops.lean ====
section
/-! DEFINITION. The shared operations of the commands: the responses (30_encoding.md R78), entering the ERROR state and leaving it
(60_exceptions.md R163, R166), the ERROR-state rule (R165), a PUSH's output and advance (40_control.md R106, R107). An operation
takes the architectural state and gives the next one with the one response. -/

namespace Sys2Proof.Machine

/-- The response NONE (30_encoding.md R78). -/
def Response.nothing : Response := ⟨.none, 0#32, 0#32, 0#32, 0#32⟩

/-- The response DATA with a register's value (30_encoding.md R78). -/
def Response.data (v : Word) : Response := ⟨.data, v, 0#32, 0#32, 0#32⟩

/-- The response SAMPLE: real, imaginary, record, subcarrier (30_encoding.md R78). -/
def Response.sample (re im record : Word) (sc : BitVec 16) : Response :=
  ⟨.sample, re, im, record, BitVec.setWidth 32 sc⟩

/-- The response ERROR with its code (30_encoding.md R78). -/
def Response.error (code : ErrorCode) : Response := ⟨.error, BitVec.setWidth 32 code.code, 0#32, 0#32, 0#32⟩

/-- The response IGNORED (30_encoding.md R78). -/
def Response.ignored : Response := ⟨.ignored, 0#32, 0#32, 0#32, 0#32⟩

/-- `raise Error(code)` in a command with the given `op` and `arg`: the three error components are written, every other one keeps
its value, and the response is ERROR (60_exceptions.md R162, R163). -/
def raiseError (code : ErrorCode) (op : BitVec 3) (arg : Word) (r : Regs) : Regs × Response :=
  ({ r with err := code.code, errOp := op, errArg := arg }, Response.error code)

/-- Leaving the ERROR state, and the effect of both reset sources: every component to its reset value, whatever it was
(60_exceptions.md R166, 70_reset_and_hazards.md R190, R191). -/
def leaveError (_ : Regs) : Regs := Regs.reset

/-- In ERROR state a command that is not NOP, RESET or a legal READ is answered IGNORED and changes nothing; outside it, it runs
(40_control.md R100, 60_exceptions.md R165). -/
def unlessError (run : Regs → Regs × Response) (r : Regs) : Regs × Response :=
  if r.err ≠ 0#8 then (r, Response.ignored) else run r

/-- `Advance`: to the next subcarrier, and after the last one to the next record (40_control.md R107). -/
def advance (r : Regs) : Regs :=
  if r.scIdx.toNat + 1 = r.nsub.toNat then { r with scIdx := 0#16, recIdx := r.recIdx + 1#32 }
  else { r with scIdx := r.scIdx + 1#16 }

/-- The output registers after a PUSH with output words `re`, `im`: they hold the output and the position it stands at
(40_control.md R106, 10_state.md R30, R31, R32). -/
def recordOutput (re im : Word) (r : Regs) : Regs :=
  { r with outRe := re, outIm := im, outSc := r.scIdx, outRec := r.recIdx, outValid := true }

/-- PUSH, common to the three formats: ERR_NOCFG before any CONFIG, otherwise the output, the advance and the response SAMPLE with
the position the output stands at (40_control.md R106). -/
def push (outputs : Word × Word) (w : Word) (r : Regs) : Regs × Response :=
  if r.cfgCv = false then raiseError .noCfg 3#3 w r
  else (advance (recordOutput outputs.1 outputs.2 r), Response.sample outputs.1 outputs.2 r.recIdx r.scIdx)

/-- A successful CONFIG: a new pass at record 0, subcarrier 0; the output registers keep the previous pass's output
(40_control.md R103, 10_state.md R32). -/
def beginPass (fmt : BitVec 4) (bw : BitVec 8) (n : BitVec 16) (r : Regs) : Regs :=
  { r with cfgFmt := fmt, cfgBw := bw, cfgCv := true, nsub := n, scIdx := 0#16, recIdx := 0#32, outValid := false }

/-- CONFIG outside the ERROR state: the four checks in the order of 60_exceptions.md R164, then a new pass (40_control.md R103). -/
def configure (rsvHi : BitVec 16) (bw : BitVec 8) (rsvLo fmt : BitVec 4) (r : Regs) : Regs × Response :=
  if rsvHi ≠ 0#16 ∨ rsvLo ≠ 0#4 then raiseError .cmd 2#3 (configArg rsvHi bw rsvLo fmt) r
  else if r.scIdx ≠ 0#16 then raiseError .partialRecord 2#3 (configArg rsvHi bw rsvLo fmt) r
  else
    match Format.ofCode fmt with
    | none => raiseError .device 2#3 (configArg rsvHi bw rsvLo fmt) r
    | some _ =>
      match nsubOf bw with
      | none => raiseError .bw 2#3 (configArg rsvHi bw rsvLo fmt) r
      | some n => (beginPass fmt bw n r, Response.nothing)

/-- The value a READ returns: none for a reserved bit or a number from 0x0B up (40_control.md R105). -/
def readValue (rsv : BitVec 24) (n : BitVec 8) (r : Regs) : Option Word :=
  if rsv ≠ 0#24 then none else regRead r n

/-- READ: its value in any state, and no change; otherwise IGNORED in ERROR state and ERR_CMD outside it
(40_control.md R105, 60_exceptions.md R165). -/
def readRegister (rsv : BitVec 24) (n : BitVec 8) (r : Regs) : Regs × Response :=
  match readValue rsv n r with
  | some v => (r, Response.data v)
  | none => unlessError (raiseError .cmd 4#3 (readArg rsv n)) r

/-- A command's one result, put into the machine: the next architectural state, and its response at the end of the response stream
(00_scope.md R12, 20_memory.md R58). -/
def answer (run : Regs → Regs × Response) (s : State) : Host.Outcome State Fault Refusal :=
  .next { s with regs := (run s.regs).1, rspOut := s.rspOut ++ [(run s.regs).2] }

end Sys2Proof.Machine
end

