-- ==== Sys2Proof/Machine/Bfp.lean ====
section
/-! DEFINITION. The meanings of PUSH.BFP95 and PUSH.BFP126 (42_bfp.md). -/

namespace Sys2Proof.Machine

/-- PUSH.BFP95: block floating point with (M, E) = (9, 5) (42_bfp.md R135). -/
def execPushBfp95 (w : Word) (s : State) : Host.Outcome State Fault Refusal :=
  answer (unlessError (push (outputsOf .bfp95 w) w)) s

/-- PUSH.BFP126: block floating point with (M, E) = (12, 6) (42_bfp.md R136). -/
def execPushBfp126 (w : Word) (s : State) : Host.Outcome State Fault Refusal :=
  answer (unlessError (push (outputsOf .bfp126 w) w)) s

end Sys2Proof.Machine
end

