-- ==== Sys2Proof/Machine/Control.lean ====
section
/-! DEFINITION. The meanings of NOP, RESET, CONFIG, READ and the reserved operations (40_control.md). -/

namespace Sys2Proof.Machine

/-- NOP, in any state: no change, NONE (40_control.md R101). -/
def execNop (_ : Word) (s : State) : Host.Outcome State Fault Refusal :=
  answer (fun r => (r, Response.nothing)) s

/-- RESET, in any state: the reset state, NONE (40_control.md R102). -/
def execReset (_ : Word) (s : State) : Host.Outcome State Fault Refusal :=
  answer (fun r => (leaveError r, Response.nothing)) s

/-- CONFIG (40_control.md R103). -/
def execConfig (rsvHi : BitVec 16) (bw : BitVec 8) (rsvLo fmt : BitVec 4) (s : State) : Host.Outcome State Fault Refusal :=
  answer (unlessError (configure rsvHi bw rsvLo fmt)) s

/-- READ (40_control.md R105). -/
def execRead (rsv : BitVec 24) (n : BitVec 8) (s : State) : Host.Outcome State Fault Refusal :=
  answer (readRegister rsv n) s

/-- The reserved operation 5: ERR_CMD (40_control.md R108). -/
def execReserved5 (arg : Word) (s : State) : Host.Outcome State Fault Refusal :=
  answer (unlessError (raiseError .cmd 5#3 arg)) s

/-- The reserved operations 6 and 7: ERR_CMD, with the whole `op` recorded (40_control.md R108, 60_exceptions.md R162). -/
def execReserved67 (low : BitVec 1) (arg : Word) (s : State) : Host.Outcome State Fault Refusal :=
  answer (unlessError (raiseError .cmd (3#2 ++ low) arg)) s

end Sys2Proof.Machine
end

