-- ==== Sys2Proof/Machine/Direct.lean ====
section
/-! DEFINITION. The meaning of PUSH.DIRECT (41_direct.md). -/

namespace Sys2Proof.Machine

/-- PUSH.DIRECT: the two halves as integers, no scaling (41_direct.md R120). -/
def execPushDirect (w : Word) (s : State) : Host.Outcome State Fault Refusal :=
  answer (unlessError (push (outputsOf .direct w) w)) s

end Sys2Proof.Machine
end

