-- ==== Sys2Proof/Machine/Dispatch.lean ====
section
/-! DEFINITION. The dispatch on the decoded command (40_control.md R100): one arm per constructor of `Instr`. -/

namespace Sys2Proof.Machine

def exec (i : Instr) (s : State) : Host.Outcome State Fault Refusal :=
  match i with
  | .nop arg => Sys2Proof.Machine.execNop arg s
  | .reset arg => Sys2Proof.Machine.execReset arg s
  | .config rsvHi bw rsvLo fmt => Sys2Proof.Machine.execConfig rsvHi bw rsvLo fmt s
  | .pushDirect w => Sys2Proof.Machine.execPushDirect w s
  | .pushBfp95 w => Sys2Proof.Machine.execPushBfp95 w s
  | .pushBfp126 w => Sys2Proof.Machine.execPushBfp126 w s
  | .read rsv n => Sys2Proof.Machine.execRead rsv n s
  | .reserved5 arg => Sys2Proof.Machine.execReserved5 arg s
  | .reserved67 low arg => Sys2Proof.Machine.execReserved67 low arg s

end Sys2Proof.Machine
end

