-- ==== Sys2Proof/Machine/Fetch.lean ====
section
/-! DEFINITION. What the block does with what stands first in its command stream: it decodes and runs a command, takes the reset
input, or waits (00_scope.md R12, 70_reset_and_hazards.md R190, 60_exceptions.md R176). -/

namespace Sys2Proof.Machine

/-- `Step(S, cmd)`: decode under `CFG.FMT`, then run (40_control.md R100). -/
def runCommand (cmd : Command) (s : State) : Host.Outcome State Fault Refusal :=
  match decode s.regs.cfgFmt cmd with
  | .ok i => exec i s
  | .error (.noFormat fmt) => .fault (.illegalFormat fmt)

/-- The reset input, between commands: the reset values, and no response (70_reset_and_hazards.md R190, R191). Commands still to
be accepted and responses already returned stand: log entry 8. -/
def resetInput (s : State) : State := { s with regs := leaveError s.regs }

/-- One step. With nothing offered the block holds its state (60_exceptions.md R176): log entry 2. -/
def stepStream (s : State) : Host.Outcome State Fault Refusal :=
  match s.cmdIn with
  | [] => .next s
  | .rst :: rest => .next (resetInput { s with cmdIn := rest })
  | .cmd w :: rest => runCommand w { s with cmdIn := rest }

/-- The host offers one command before all it has already offered. -/
def offerFirst (cmd : Command) (s : State) : State := { s with cmdIn := .cmd cmd :: s.cmdIn }

end Sys2Proof.Machine
end

