-- ==== Sys2Proof/Machine/Step.lean ====
section
/-! DEFINITION. One step of the machine, and a state whose next command is a given table word (log entries 1 and 3). -/

namespace Sys2Proof.Machine

/-- One step (00_scope.md R12, 40_control.md R100). -/
def step (s : State) : Host.Outcome State Fault Refusal := stepStream s

/-- The state with the table word offered as its next command. A number that is no 35-bit word is offered as its low 35 bits. -/
def State.withFetchWord (s : State) (nbits w : Nat) : State :=
  offerFirst (BitVec.ofNat 35 (w % 2 ^ nbits)) s

end Sys2Proof.Machine
end

