-- ==== Sys2Proof/Machine/Asm.lean ====
section
/-! DEFINITION. The assembler of a command stream: statements, their words (30_encoding.md R86) and the pseudo-instructions (R87),
and the reading of a line of text. It makes command words for the host; the block does not depend on it. -/

namespace Sys2Proof.Machine

/-- A statement of the assembler: the commands, `.cmd`, and the pseudo-instructions (30_encoding.md R86, R87). -/
inductive AsmLine where
  | nop
  | reset
  | config (fmt bw : Nat)
  | push (w : Nat)
  | read (n : Nat)
  | cmd (op arg : Nat)
  | pushIq (re im : Int)
  | pushB95 (rs rm is im e : Nat)
  | pushB126 (rs rm is im e : Nat)
deriving DecidableEq, Repr

/-- The fields that a pseudo-instruction's operands give, signs 0 or 1 (30_encoding.md R87). -/
def asmFields (rs rm is im e : Nat) : BfpFields := ⟨e, im, decide (is = 1), rm, decide (rs = 1)⟩

/-- The operands of a block-floating-point pseudo-instruction are in range: signs 0 or 1, the other fields within their widths
(30_encoding.md R87). -/
abbrev asmFits (m e : Nat) (rs rm is im x : Nat) : Prop :=
  rs < 2 ∧ is < 2 ∧ rm < 2 ^ (m - 1) ∧ im < 2 ^ (m - 1) ∧ x < 2 ^ e

/-- The command word of a statement; a number out of its stated range is refused, never truncated (30_encoding.md R86, R87). -/
def assemble : AsmLine → Option Command
  | .nop => some (Command.mk 0#3 0#32)
  | .reset => some (Command.mk 1#3 0#32)
  | .config fmt bw =>
    if fmt < 16 ∧ bw < 256 then
      some (Command.mk 2#3 (BitVec.setWidth 32 (BitVec.ofNat 8 bw ++ 0#4 ++ BitVec.ofNat 4 fmt)))
    else none
  | .push w => if w < 2 ^ 32 then some (Command.mk 3#3 (BitVec.ofNat 32 w)) else none
  | .read n => if n < 256 then some (Command.mk 4#3 (BitVec.setWidth 32 (BitVec.ofNat 8 n))) else none
  | .cmd op arg => if op < 8 ∧ arg < 2 ^ 32 then some (Command.mk (BitVec.ofNat 3 op) (BitVec.ofNat 32 arg)) else none
  | .pushIq re im =>
    if -32768 ≤ re ∧ re ≤ 32767 ∧ -32768 ≤ im ∧ im ≤ 32767 then some (Command.mk 3#3 (directWord re im)) else none
  | .pushB95 rs rm is im e =>
    if asmFits 9 5 rs rm is im e then some (Command.mk 3#3 (bfpWord 9 5 (asmFields rs rm is im e))) else none
  | .pushB126 rs rm is im e =>
    if asmFits 12 6 rs rm is im e then some (Command.mk 3#3 (bfpWord 12 6 (asmFields rs rm is im e))) else none

/-- White space inside a line. -/
def asmBlank (c : Char) : Bool := c == ' ' || c == '\t' || c == '\r'

/-- A text without white space at its ends. -/
def asmTrim (cs : List Char) : List Char := ((cs.dropWhile asmBlank).reverse.dropWhile asmBlank).reverse

/-- The pieces of a text between separators. -/
def asmSplit (sep : Char) : List Char → List (List Char)
  | [] => [[]]
  | c :: cs =>
    if c == sep then [] :: asmSplit sep cs
    else
      match asmSplit sep cs with
      | [] => [[c]]
      | piece :: pieces => (c :: piece) :: pieces

/-- The value of a digit in a base, letters being capitals. -/
def asmDigit (base : Nat) (c : Char) : Option Nat :=
  let v := if '0'.toNat ≤ c.toNat ∧ c.toNat ≤ '9'.toNat then c.toNat - 48
    else if 'A'.toNat ≤ c.toNat ∧ c.toNat ≤ 'F'.toNat then c.toNat - 55
    else base
  if v < base then some v else none

/-- The number that digits in a base spell, after those already read. -/
def asmDigits (base : Nat) : Nat → List Char → Option Nat
  | acc, [] => some acc
  | acc, c :: cs =>
    match asmDigit base c with
    | some d => asmDigits base (acc * base + d) cs
    | none => none

/-- A number: decimal, or hexadecimal after `0x` (30_encoding.md R86). -/
def asmNumber : List Char → Option Nat
  | [] => none
  | ['0', 'X'] => none
  | '0' :: 'X' :: cs => asmDigits 16 0 cs
  | cs => asmDigits 10 0 cs

/-- A number that may carry a minus sign, as the operands of PUSHIQ may (30_encoding.md R87). -/
def asmSigned : List Char → Option Int
  | '-' :: cs => (asmNumber cs).map fun n => -(n : Int)
  | cs => (asmNumber cs).map fun n => (n : Int)

/-- The value that a table of names gives a word, or else the number it spells. -/
def asmNamed : List (List Char × Nat) → List Char → Option Nat
  | [], cs => asmNumber cs
  | (name, v) :: names, cs => if cs = name then some v else asmNamed names cs

/-- The names of the formats (30_encoding.md R86). -/
def asmFormats : List (List Char × Nat) :=
  [(['D', 'I', 'R', 'E', 'C', 'T'], 0), (['B', 'F', 'P', '_', '9', '_', '5'], 1), (['B', 'F', 'P', '_', '1', '2', '_', '6'], 2)]

/-- The names of the registers (10_state.md R35, 30_encoding.md R86). -/
def asmRegisters : List (List Char × Nat) :=
  [(['S', 'T', 'A', 'T', 'U', 'S'], 0x00), (['C', 'F', 'G'], 0x01), (['N', 'S', 'U', 'B'], 0x02), (['S', 'C', '_', 'I', 'D', 'X'], 0x03),
   (['R', 'E', 'C', '_', 'I', 'D', 'X'], 0x04), (['O', 'U', 'T', '_', 'R', 'E'], 0x05), (['O', 'U', 'T', '_', 'I', 'M'], 0x06),
   (['O', 'U', 'T', '_', 'S', 'C'], 0x07), (['O', 'U', 'T', '_', 'R', 'E', 'C'], 0x08), (['E', 'R', 'R', '_', 'O', 'P'], 0x09),
   (['E', 'R', 'R', '_', 'A', 'R', 'G'], 0x0A)]

/-- A statement from its mnemonic and its operands, all in capitals; none where the syntax has no such statement. -/
def asmStatement (mnemonic : List Char) (operands : List (List Char)) : Option AsmLine :=
  if mnemonic = ['N', 'O', 'P'] then
    match operands with
    | [] => some .nop
    | _ => none
  else if mnemonic = ['R', 'E', 'S', 'E', 'T'] then
    match operands with
    | [] => some .reset
    | _ => none
  else if mnemonic = ['C', 'O', 'N', 'F', 'I', 'G'] then
    match operands with
    | [f, b] => (asmNamed asmFormats f).bind fun fmt => (asmNumber b).map fun bw => .config fmt bw
    | _ => none
  else if mnemonic = ['P', 'U', 'S', 'H'] then
    match operands with
    | [w] => (asmNumber w).map .push
    | _ => none
  else if mnemonic = ['R', 'E', 'A', 'D'] then
    match operands with
    | [n] => (asmNamed asmRegisters n).map .read
    | _ => none
  else if mnemonic = ['.', 'C', 'M', 'D'] then
    match operands.map asmNumber with
    | [some op, some arg] => some (.cmd op arg)
    | _ => none
  else if mnemonic = ['P', 'U', 'S', 'H', 'I', 'Q'] then
    match operands.map asmSigned with
    | [some re, some im] => some (.pushIq re im)
    | _ => none
  else if mnemonic = ['P', 'U', 'S', 'H', 'B', '9', '5'] then
    match operands.map asmNumber with
    | [some rs, some rm, some is, some im, some e] => some (.pushB95 rs rm is im e)
    | _ => none
  else if mnemonic = ['P', 'U', 'S', 'H', 'B', '1', '2', '6'] then
    match operands.map asmNumber with
    | [some rs, some rm, some is, some im, some e] => some (.pushB126 rs rm is im e)
    | _ => none
  else none

/-- The statement of a line, or none where it holds none: `;` starts a comment, and case does not count (30_encoding.md R86). The
outer none refuses the line. DESIGN CHOICE, safe: log entry 13. -/
def asmParse (line : List Char) : Option (Option AsmLine) :=
  let text := asmTrim ((line.takeWhile fun c => c != ';').map Char.toUpper)
  let mnemonic := text.takeWhile fun c => !asmBlank c
  let rest := asmTrim (text.dropWhile fun c => !asmBlank c)
  if text.isEmpty then some none
  else (asmStatement mnemonic (if rest.isEmpty then [] else (asmSplit ',' rest).map asmTrim)).map some

/-- The command words of a text, one command a line; none where a line is refused (30_encoding.md R86). -/
def asmLines : List (List Char) → Option (List Command)
  | [] => some []
  | line :: lines =>
    match asmParse line with
    | none => none
    | some none => asmLines lines
    | some (some statement) => (assemble statement).bind fun w => (asmLines lines).map (w :: ·)

/-- The command words of a text (30_encoding.md R86). -/
def asmText (text : List Char) : Option (List Command) := asmLines (asmSplit '\n' text)

end Sys2Proof.Machine
end

