-- ==== Sys2Proof/Machine/Instances.lean ====
section
/-! DEFINITION. Several blocks side by side, each with its own state and its own command stream (20_memory.md R60, 60_exceptions.md
R174). -/

namespace Sys2Proof.Machine

/-- One step of block `k` of a list of blocks; the others keep their states. A number that names no block changes nothing. -/
def stepAt (k : Nat) (blocks : List State) : Host.Outcome (List State) Fault Refusal :=
  match blocks[k]? with
  | none => .next blocks
  | some s =>
    match step s with
    | .next t => .next (blocks.set k t)
    | .fault e => .fault e
    | .refused e => .refused e

end Sys2Proof.Machine
end

