-- ==== Sys2Proof/Machine/Payload.lean ====
section
/-! DEFINITION. The host's side of a PUSH: how the payload bytes of a record become payload words (20_memory.md R52, R53, R56). The
block itself never sees bytes. -/

namespace Sys2Proof.Machine

/-- The payload word of 4 consecutive bytes, `b0` first: `b3 b2 b1 b0` under `LE`, `b0 b1 b2 b3` under `BE`, the leftmost most
significant (20_memory.md R53). -/
def payloadWord (order : ByteOrder) (b0 b1 b2 b3 : Byte) : Word :=
  match order with
  | .le => b3 ++ b2 ++ b1 ++ b0
  | .be => b0 ++ b1 ++ b2 ++ b3

/-- The payload words of a record's bytes, subcarrier 0 first, bytes `4·sc` to `4·sc + 3` for subcarrier `sc` (20_memory.md R52,
R56). R52 gives a record `nsub · 4` bytes and says nothing of any other length. There this answers the words of every whole number
of words, and none otherwise. DESIGN CHOICE, unsafe: log entry 19. -/
def payloadWords (order : ByteOrder) : List Byte → Option (List Word)
  | [] => some []
  | b0 :: b1 :: b2 :: b3 :: rest => (payloadWords order rest).map (payloadWord order b0 b1 b2 b3 :: ·)
  | _ => none

end Sys2Proof.Machine
end

