-- ==== Sys2Proof/Machine/Pass.lean ====
section
/-! DEFINITION. A pass as the host drives it and reads it: the initialisation order (70_reset_and_hazards.md R193), the position of
an output (40_control.md R104), when a pass is whole and what its result is (R194, 60_exceptions.md R169). -/

namespace Sys2Proof.Machine

/-- The PUSH commands of a list of payload words, in order (70_reset_and_hazards.md R193). -/
def pushEvents (ws : List Word) : List HostEvent := ws.map fun w => .cmd (Command.mk 3#3 w)

/-- What the host offers for a pass: RESET, CONFIG, then one PUSH per payload word (70_reset_and_hazards.md R193). -/
def passEvents (f : Format) (bw : BitVec 8) (ws : List Word) : List HostEvent :=
  .cmd (encode (.reset 0#32)) :: .cmd (encode (.config 0#16 bw 0#4 f.code)) :: pushEvents ws

/-- The responses a pass of payload words brings, the first of them being output `k`: output `k` stands at record `k div n`,
subcarrier `k mod n`, the record modulo 2^32 (40_control.md R104). -/
def passSamples (f : Format) (n : Nat) : Nat → List Word → List Response
  | _, [] => []
  | k, w :: ws =>
    Response.sample (outputsOf f w).1 (outputsOf f w).2 (BitVec.ofNat 32 (k / n)) (BitVec.ofNat 16 (k % n)) :: passSamples f n (k + 1) ws

/-- The pass holds a whole number of records and no error has been raised (70_reset_and_hazards.md R194). -/
def passWhole (s : State) : Bool := decide (s.regs.err = 0#8) && decide (s.regs.scIdx = 0#16)

/-- The result of a pass that ends in `s`, from the responses since its CONFIG: its SAMPLE responses, and none at all if an error
was raised (70_reset_and_hazards.md R194, 60_exceptions.md R169). -/
def passResult (s : State) (since : List Response) : Option (List Response) :=
  if s.regs.err = 0#8 then some (since.filter fun r => decide (r.kind = .sample)) else none

end Sys2Proof.Machine
end

