-- ==== Sys2Proof/Machine/Port.lean ====
section
/-! DEFINITION. The optional port realisation (70_reset_and_hazards.md R200, R201): the signals at one rising edge of `clk`, the
handshakes, and a family of realisations around the machine. Latency, stalls and depth are free values of Config (log entry 9).
It is not architectural (10_state.md R38): it wraps a State and changes nothing of what a command does. -/

namespace Sys2Proof.Machine

/-- The input signals at a rising edge (R200). -/
structure PinsIn where
  rst : Bool
  cmdValid : Bool
  cmdOp : BitVec 3
  cmdArg : Word
  rspReady : Bool
deriving DecidableEq, Repr

/-- The output signals at a rising edge (R200). -/
structure PinsOut where
  cmdReady : Bool
  rspValid : Bool
  rspKind : BitVec 3
  rspD0 : Word
  rspD1 : Word
  rspD2 : Word
  rspD3 : Word
  err : Bool
deriving DecidableEq, Repr

/-- The port: in `core`, `cmdIn` holds the commands accepted and not yet answered and `rspOut` the response offered, at most one;
`accepted` and `answered` count commands since power-on; `wait` is the cycles until the next answer, `stall` those for which
`cmd_ready` stays low. -/
structure Port where
  core : State
  accepted : Nat
  answered : Nat
  wait : Nat
  stall : Nat
deriving DecidableEq, Repr

/-- The port after power-on reset, ready at once. DESIGN CHOICE, unsafe: log entry 22. -/
def Port.reset : Port where
  core := State.reset
  accepted := 0
  answered := 0
  wait := Config.latency 0
  stall := 0

/-- `cmd_ready`: low under `rst`, while stalled, and while more commands wait than the depth allows (R200). -/
def Port.cmdReady (p : Port) (rst : Bool) : Bool :=
  !rst && decide (p.stall = 0) && decide (p.core.cmdIn.length ≤ Config.depth)

/-- `rsp_valid`: a response is offered, and `rst` is low (R200). -/
def Port.rspValid (p : Port) (rst : Bool) : Bool := !rst && !p.core.rspOut.isEmpty

/-- The response the port shows: the oldest one not yet taken while `rsp_valid` is high, and NONE with its fields 0 while it is low,
under `rst` too. What the fields show while `rsp_valid` is low R200 leaves open. DESIGN CHOICE, safe: log entry 9. -/
def Port.shown (p : Port) (rst : Bool) : Response :=
  if p.rspValid rst then p.core.rspOut.headD Response.nothing else Response.nothing

/-- The output signals (R200). That `err` is low as soon as `rst` is high, before the edge that clears ERR, is a DESIGN CHOICE, safe:
log entry 21. -/
def Port.pins (p : Port) (rst : Bool) : PinsOut where
  cmdReady := p.cmdReady rst
  rspValid := p.rspValid rst
  rspKind := (p.shown rst).kind.code
  rspD0 := (p.shown rst).d0
  rspD1 := (p.shown rst).d1
  rspD2 := (p.shown rst).d2
  rspD3 := (p.shown rst).d3
  err := !rst && p.core.regs.errLine

/-- The offered command word (R200). -/
def PinsIn.command (i : PinsIn) : Command := Command.mk i.cmdOp i.cmdArg

/-- The block accepts the offered command at this edge (R200). -/
def Port.accepts (p : Port) (i : PinsIn) : Bool := i.cmdValid && p.cmdReady i.rst

/-- The host takes the offered response at this edge (R200). -/
def Port.taken (p : Port) (i : PinsIn) : Bool := p.rspValid i.rst && i.rspReady

/-- The response the host takes leaves the port. -/
def Port.take (p : Port) (i : PinsIn) : Port :=
  if p.taken i then { p with core := { p.core with rspOut := p.core.rspOut.drop 1 } } else p

/-- An accepted command joins the commands waiting, and the port may then stall; otherwise a stall runs down. -/
def Port.accept (p : Port) (i : PinsIn) : Port :=
  if p.accepts i then
    { p with
      core := { p.core with cmdIn := p.core.cmdIn ++ [.cmd i.command] }
      accepted := p.accepted + 1
      stall := Config.stall p.accepted }
  else { p with stall := p.stall - 1 }

/-- The first waiting command is answered once its latency has run down and the last response has been taken, so that `err` rises
with the response of the erroring command (60_exceptions.md R167). -/
def Port.work (p : Port) : Port :=
  if p.core.cmdIn.isEmpty || !p.core.rspOut.isEmpty then p
  else if p.wait ≠ 0 then { p with wait := p.wait - 1 }
  else
    match step p.core with
    | .next c => { p with core := c, answered := p.answered + 1, wait := Config.latency (p.answered + 1) }
    | .fault _ => p
    | .refused _ => p

/-- Under `rst` the state is held at the reset values; a command not yet answered and a response not yet taken are gone
(70_reset_and_hazards.md R191, R200): log entry 10. No stall is left, so that `cmd_ready` is high as soon as `rst` is low again, where
R200 lets it stay low and R201 says that a command may then be accepted. DESIGN CHOICE, unsafe: log entry 22. -/
def Port.clear (p : Port) : Port :=
  { p with
    core := { p.core with regs := leaveError p.core.regs, cmdIn := [], rspOut := [] }
    wait := Config.latency p.answered
    stall := 0 }

/-- One rising edge of `clk` (R200). That `rst` clears the state at the edge, where R201 leaves open whether it acts synchronously or
asynchronously, is a DESIGN CHOICE, safe: log entry 21. -/
def Port.tick (p : Port) (i : PinsIn) : Port :=
  if i.rst then p.clear else ((p.take i).accept i).work

/-- A port with what its host has seen since the last reset: the commands accepted and the responses taken, in order. -/
structure PortTrace where
  port : Port
  accepted : List Command
  taken : List Response
deriving DecidableEq, Repr

/-- A port after power-on reset, of which the host has seen nothing. -/
def PortTrace.start : PortTrace := ⟨Port.reset, [], []⟩

/-- One rising edge, with what the host sees of it. -/
def PortTrace.tick (t : PortTrace) (i : PinsIn) : PortTrace where
  port := t.port.tick i
  accepted := if i.rst then [] else if t.port.accepts i then t.accepted ++ [i.command] else t.accepted
  taken := if i.rst then [] else if t.port.taken i then t.taken ++ t.port.core.rspOut.take 1 else t.taken

/-- The rising edges of a list of inputs. -/
def PortTrace.run (t : PortTrace) (ins : List PinsIn) : PortTrace := ins.foldl PortTrace.tick t

end Sys2Proof.Machine
end

