-- ==== Sys2Proof/WellFormed.lean ====
section
/-! DEFINITION. What can be checked of a command without running it: under which `CFG.FMT` a PUSH form is the one the word
stands for (30_encoding.md R83), which static error a command carries (60_exceptions.md R161), and which commands the
assembler's syntax can write (30_encoding.md R86). -/

namespace Sys2Proof

/-- The format of a PUSH form, none for any other command. -/
def Instr.pushFormat : Instr → Option Format
  | .pushDirect _ => some .direct
  | .pushBfp95 _ => some .bfp95
  | .pushBfp126 _ => some .bfp126
  | .nop _ => none
  | .reset _ => none
  | .config _ _ _ _ => none
  | .read _ _ => none
  | .reserved5 _ => none
  | .reserved67 _ _ => none

/-- The command is what its word stands for while `CFG.FMT` is `fmt`: a PUSH form only under its own format
(30_encoding.md R83), any other command always. -/
def Instr.wellFormed (fmt : BitVec 4) (i : Instr) : Bool :=
  match i.pushFormat with
  | some f => decide (f.code = fmt)
  | none => true

/-- The command's word has no reserved operation, no reserved `arg` bit set and no register number above 0x0A, so that it
cannot raise ERR_CMD (30_encoding.md R73, 60_exceptions.md R161). -/
def Instr.noReserved : Instr → Bool
  | .nop _ => true
  | .reset _ => true
  | .config rsvHi _ rsvLo _ => decide (rsvHi = 0#16) && decide (rsvLo = 0#4)
  | .pushDirect _ => true
  | .pushBfp95 _ => true
  | .pushBfp126 _ => true
  | .read rsv n => decide (rsv = 0#24) && decide (n ≤ 0x0A#8)
  | .reserved5 _ => false
  | .reserved67 _ _ => false

/-- A CONFIG whose format and bandwidth are ones the block has, so that it cannot raise ERR_DEVICE or ERR_BW
(60_exceptions.md R161); any other command has neither field. -/
def Instr.supported : Instr → Bool
  | .config _ bw _ fmt => (Format.ofCode fmt).isSome && (nsubOf bw).isSome
  | .nop _ => true
  | .reset _ => true
  | .pushDirect _ => true
  | .pushBfp95 _ => true
  | .pushBfp126 _ => true
  | .read _ _ => true
  | .reserved5 _ => true
  | .reserved67 _ _ => true

/-- The command is one that READ, NOP, RESET, CONFIG or PUSH of the assembler's syntax can write, `.cmd` left aside: the ignored
and the reserved `arg` bits are 0 and the operation is not reserved (30_encoding.md R86). -/
def Instr.writable : Instr → Bool
  | .nop arg => decide (arg = 0#32)
  | .reset arg => decide (arg = 0#32)
  | .config rsvHi _ rsvLo _ => decide (rsvHi = 0#16) && decide (rsvLo = 0#4)
  | .pushDirect _ => true
  | .pushBfp95 _ => true
  | .pushBfp126 _ => true
  | .read rsv _ => decide (rsv = 0#24)
  | .reserved5 _ => false
  | .reserved67 _ _ => false

end Sys2Proof
end

