-- ==== Sys2Proof/Safety.lean ====
section
/-! DEFINITION. What counts as a good state and a safe run: the invariants of 10_state.md R36, the states a port is in, and runs that
no fault ends. -/

namespace Sys2Proof.Machine

/-- R36 (a): while `CFG.CV = 0` the configuration, the position and `OUT_VALID` are 0. -/
abbrev Regs.clearWhileUnconfigured (r : Regs) : Prop :=
  r.cfgCv = false →
    r.cfgFmt = 0#4 ∧ r.cfgBw = 0#8 ∧ r.nsub = 0#16 ∧ r.scIdx = 0#16 ∧ r.recIdx = 0#32 ∧ r.outValid = false

/-- R36 (b): while `CFG.CV = 1` the format and the bandwidth are legal, `NSUB` is the bandwidth's, and the position is inside it. -/
abbrev Regs.legalWhileConfigured (r : Regs) : Prop :=
  r.cfgCv = true →
    (r.cfgFmt = 0#4 ∨ r.cfgFmt = 1#4 ∨ r.cfgFmt = 2#4) ∧
      (r.cfgBw = 20#8 ∨ r.cfgBw = 40#8 ∨ r.cfgBw = 80#8 ∨ r.cfgBw = 160#8) ∧ nsubOf r.cfgBw = some r.nsub ∧ r.scIdx < r.nsub

/-- R36 (c): while `ERR = 0` the recorded command is 0. -/
abbrev Regs.noCommandWithoutError (r : Regs) : Prop := r.err = 0#8 → r.errOp = 0#3 ∧ r.errArg = 0#32

/-- R36 (d): `ERR` is one of 0 to 5. -/
abbrev Regs.knownError (r : Regs) : Prop :=
  r.err = 0#8 ∨ r.err = 1#8 ∨ r.err = 2#8 ∨ r.err = 3#8 ∨ r.err = 4#8 ∨ r.err = 5#8

/-- The state invariants of 10_state.md R36. -/
abbrev Regs.inv (r : Regs) : Prop :=
  r.clearWhileUnconfigured ∧ r.legalWhileConfigured ∧ r.noCommandWithoutError ∧ r.knownError

/-- `k` steps from `s` end in `t`, none of them stopping. -/
def runsTo (k : Nat) (s t : State) : Prop := Sys2Proof.core.run k s = .next t

/-- No number of steps from `s` meets a fault or a refusal. -/
def neverStops (s : State) : Prop := ∀ k, ∃ t, runsTo k s t

/-- A state a port is in: its commands are commands, at most one response is offered, and its registers satisfy R36. -/
def Port.inv (p : Port) : Prop :=
  p.core.regs.inv ∧ (∀ e ∈ p.core.cmdIn, e ≠ .rst) ∧ p.core.rspOut.length ≤ 1

/-- The event is a command, which is answered; the reset input is not (70_reset_and_hazards.md R191). -/
def HostEvent.isCommand : HostEvent → Bool
  | .cmd _ => true
  | .rst => false

/-- The event is one of the two reset sources, the RESET command or the reset input (70_reset_and_hazards.md R190). -/
def HostEvent.isReset : HostEvent → Bool
  | .cmd w => decide (Command.op w = 1#3)
  | .rst => true

/-- The events `evs` hold no reset of either source. -/
def noReset (evs : List HostEvent) : Prop := ∀ e ∈ evs, e.isReset = false

/-- How many of the events are commands: the place in the response stream of the response to a command that comes behind them
(20_memory.md R58). -/
def commandCount (evs : List HostEvent) : Nat := evs.countP HostEvent.isCommand

/-- `t` is the state in which all of the events, commands and reset inputs, have happened since reset. -/
def answersAll (evs : List HostEvent) (t : State) : Prop :=
  runsTo evs.length { State.reset with cmdIn := evs } t

/-- The state after an error as 60_exceptions.md R163 words it: code, `op` and `arg` recorded, the response ERROR, all else as
before. -/
def State.afterError (s : State) (code : BitVec 8) (op : BitVec 3) (arg : Word) : State :=
  { s with
    regs := { s.regs with err := code, errOp := op, errArg := arg }
    rspOut := s.rspOut ++ [⟨.error, BitVec.setWidth 32 code, 0#32, 0#32, 0#32⟩] }

/-- The state after a response that comes with no change. -/
def State.afterResponse (s : State) (rsp : Response) : State := { s with rspOut := s.rspOut ++ [rsp] }

/-- The state after a successful PUSH with output words `re`, `im`, as 40_control.md R106 and R107 word it. -/
def State.afterPush (s : State) (re im : Word) : State :=
  { s with
    regs :=
      { s.regs with
        outRe := re
        outIm := im
        outSc := s.regs.scIdx
        outRec := s.regs.recIdx
        outValid := true
        scIdx := if s.regs.scIdx.toNat + 1 = s.regs.nsub.toNat then 0#16 else s.regs.scIdx + 1#16
        recIdx := if s.regs.scIdx.toNat + 1 = s.regs.nsub.toNat then s.regs.recIdx + 1#32 else s.regs.recIdx }
    rspOut := s.rspOut ++ [⟨.sample, re, im, s.regs.recIdx, BitVec.setWidth 32 s.regs.scIdx⟩] }

/-- The state after a successful CONFIG, as 40_control.md R103 words it. -/
def State.afterConfig (s : State) (fmt : BitVec 4) (bw : BitVec 8) (n : BitVec 16) : State :=
  { s with
    regs :=
      { s.regs with
        cfgFmt := fmt
        cfgBw := bw
        cfgCv := true
        nsub := n
        scIdx := 0#16
        recIdx := 0#32
        outValid := false }
    rspOut := s.rspOut ++ [⟨.none, 0#32, 0#32, 0#32, 0#32⟩] }

end Sys2Proof.Machine
end

