-- ==== Sys2Proof/Certificates/Slice0/Obligations.lean ====
section
/-! DEFINITION. The statements for the provers. Each docstring names the rule of spec/ it formalises. -/

open Sys2Proof Sys2Proof.Machine

/-! Encoding -/

/-- Every command that is well formed under a `CFG.FMT` is read back from its word, every field at every value
(30_encoding.md R71 to R77, R83, R88). -/
def Obligations.DecodeOfEncodeIsIdentity : Prop :=
  ∀ (fmt : BitVec 4) (i : Instr), i.wellFormed fmt = true → decode fmt (encode i) = .ok i

/-- Every 35-bit word that is read is the word of what was read, which is well formed; and under the three formats every word is
read (30_encoding.md R71 to R77, R83, R88). -/
def Obligations.EncodeOfDecodeIsIdentity : Prop :=
  (∀ (fmt : BitVec 4) (cmd : Command) (i : Instr), decode fmt cmd = .ok i → encode i = cmd ∧ i.wellFormed fmt = true) ∧
    ∀ (f : Format) (cmd : Command), ∃ i, decode f.code cmd = .ok i

/-- The arms of `Decode`, one per value of `op`, with the fields of `arg` as numbers (30_encoding.md R88). -/
def Obligations.DecoderArmsByOperation : Prop :=
  ∀ (fmt : BitVec 4) (arg : Word),
    decode fmt (0#3 ++ arg) = .ok (.nop arg) ∧
    decode fmt (1#3 ++ arg) = .ok (.reset arg) ∧
    (∃ rsvHi bw rsvLo f, decode fmt (2#3 ++ arg) = .ok (.config rsvHi bw rsvLo f) ∧
      f.toNat = arg.toNat % 2 ^ 4 ∧ bw.toNat = arg.toNat / 2 ^ 8 % 2 ^ 8 ∧
      ((rsvHi ≠ 0#16 ∨ rsvLo ≠ 0#4) ↔ (arg.toNat / 2 ^ 16 ≠ 0 ∨ arg.toNat / 2 ^ 4 % 2 ^ 4 ≠ 0))) ∧
    decode 0#4 (3#3 ++ arg) = .ok (.pushDirect arg) ∧
    decode 1#4 (3#3 ++ arg) = .ok (.pushBfp95 arg) ∧
    decode 2#4 (3#3 ++ arg) = .ok (.pushBfp126 arg) ∧
    (∃ rsv n, decode fmt (4#3 ++ arg) = .ok (.read rsv n) ∧
      n.toNat = arg.toNat % 2 ^ 8 ∧ (rsv ≠ 0#24 ↔ arg.toNat / 2 ^ 8 ≠ 0)) ∧
    decode fmt (5#3 ++ arg) = .ok (.reserved5 arg) ∧
    decode fmt (6#3 ++ arg) = .ok (.reserved67 0#1 arg) ∧
    decode fmt (7#3 ++ arg) = .ok (.reserved67 1#1 arg)

/-- A row of opcode_table.json that matches a word is the row of the command decoded from it, so no two rows with different
mnemonics match one word under one `CFG.FMT`; and a word has a row exactly when it is no CONFIG or READ with a reserved `arg` bit set
(30_encoding.md R88). -/
def Obligations.TableRowsMatchTheDecoder : Prop :=
  ∀ (fmt : BitVec 4) (cmd : Command) (i : Instr), decode fmt cmd = .ok i →
    (∀ row ∈ opcodeTable, row.covers fmt cmd = true → row.mnemonic = i.mnemonic) ∧
      ((∃ row ∈ opcodeTable, row.covers fmt cmd = true) ↔ (i.op = 2#3 ∨ i.op = 4#3 → i.writable = true))

/-- Words written out from the tables of 30_encoding.md R71 to R77 decode to the commands they stand for. -/
def Obligations.WrittenWordsDecode : Prop :=
  decode 0#4 0b000_11011110101011011011111011101111#35 = .ok (.nop 0xDEADBEEF#32) ∧
  decode 0#4 0b010_0000000000000000_01010000_0000_0010#35 = .ok (.config 0#16 80#8 0#4 2#4) ∧
  decode 0#4 0b011_1111111111001110_0000000001100100#35 = .ok (.pushDirect 0xFFCE0064#32) ∧
  decode 1#4 0b011_000000000_0_00000011_0_00000101_00000#35 = .ok (.pushBfp95 0x0000C0A0#32) ∧
  decode 2#4 0b011_00_1_00000000001_0_00000000001_000000#35 = .ok (.pushBfp126 0x20040040#32) ∧
  decode 0#4 0b100_000000000000000000000000_00001011#35 = .ok (.read 0#24 0x0B#8) ∧
  decode 0#4 0b111_00000000000000000000000000000000#35 = .ok (.reserved67 1#1 0#32)

/-! Steps -/

/-- A step runs the command decoded under the current `CFG.FMT`, with that command taken off the command stream
(40_control.md R100). -/
def Obligations.StepRunsDecodedCommand : Prop :=
  ∀ (s : State) (w : Command) (rest : List HostEvent) (i : Instr),
    s.cmdIn = .cmd w :: rest → decode s.regs.cfgFmt w = .ok i → step s = exec i { s with cmdIn := rest }

/-- The reset input puts every component at its reset value and is not answered (70_reset_and_hazards.md R190, R191); what the host
has still to offer and has already been answered stands, which is the model's choice (log entry 8). -/
def Obligations.ResetInputResetsWithoutResponse : Prop :=
  ∀ (s : State) (rest : List HostEvent),
    s.cmdIn = .rst :: rest → step s = .next { regs := Regs.reset, cmdIn := rest, rspOut := s.rspOut }

/-- With nothing offered the block holds its state (60_exceptions.md R176); that a step is then taken at all is the model's choice
(log entry 2). -/
def Obligations.StepWithoutCommandHoldsState : Prop :=
  ∀ s : State, s.cmdIn = [] → step s = .next s

/-- Every 35-bit word in every state that satisfies R36 has exactly one result: a next state that satisfies R36 again, and one
response at the end of the response stream (00_scope.md R12, 30_encoding.md R78). -/
def Obligations.EveryCommandHasOneResult : Prop :=
  ∀ (s : State) (w : Command) (rest : List HostEvent), s.regs.inv → s.cmdIn = .cmd w :: rest →
    ∃ (r : Regs) (rsp : Response), step s = .next { regs := r, cmdIn := rest, rspOut := s.rspOut ++ [rsp] } ∧ r.inv

/-! Invariants -/

/-- The reset state satisfies the invariants of 10_state.md R36, which the spec marks as derived. -/
def Obligations.ResetSatisfiesInvariants : Prop := State.reset.regs.inv

/-- Every step keeps the invariants of 10_state.md R36, which the spec marks as derived, from every state that satisfies them. -/
def Obligations.StepKeepsInvariants : Prop :=
  ∀ s t : State, s.regs.inv → step s = .next t → t.regs.inv

/-- No run from a state that satisfies R36, whatever is offered, meets a fault or a refusal (00_scope.md R12: the step is total). -/
def Obligations.NoRunStops : Prop := ∀ s : State, s.regs.inv → neverStops s

/-! NOP and RESET -/

/-- NOP, the word with `op` 0 and any `arg`, changes nothing and answers NONE, in any state (40_control.md R101). -/
def Obligations.NopOnlyAnswers : Prop :=
  ∀ (arg : Word) (s : State),
    decode s.regs.cfgFmt (0#3 ++ arg) = .ok (.nop arg) ∧
    exec (.nop arg) s = .next (s.afterResponse ⟨.none, 0#32, 0#32, 0#32, 0#32⟩)

/-- RESET, the word with `op` 1 and any `arg`, puts every component at the value of R37 in any state, also in ERROR, so that STATUS
is 0, and answers NONE; the reset input has the same effect on every component; and no other command leaves the ERROR state
(40_control.md R102). -/
def Obligations.ResetCommandResetsEveryComponent : Prop :=
  ∀ (arg : Word) (s : State),
    let zero : Regs := ⟨false, 0#4, 0#8, 0#16, 0#16, 0#32, false, 0#32, 0#32, 0#16, 0#32, 0#8, 0#3, 0#32⟩
    decode s.regs.cfgFmt (1#3 ++ arg) = .ok (.reset arg) ∧
    exec (.reset arg) s =
      .next { regs := zero, cmdIn := s.cmdIn, rspOut := s.rspOut ++ [⟨.none, 0#32, 0#32, 0#32, 0#32⟩] } ∧
    zero.status = 0x00000000#32 ∧
    (∀ rest, s.cmdIn = .rst :: rest → ∃ t, step s = .next t ∧ t.regs = zero) ∧
    ∀ (i : Instr) (t : State), s.regs.err ≠ 0#8 → exec i s = .next t → t.regs.err = 0#8 → i.op = 1#3

/-- The value of every component after reset, and STATUS (10_state.md R37). -/
def Obligations.ResetValues : Prop :=
  State.reset.regs.cfgCv = false ∧ State.reset.regs.cfgFmt = 0#4 ∧ State.reset.regs.cfgBw = 0#8 ∧ State.reset.regs.nsub = 0#16 ∧
  State.reset.regs.scIdx = 0#16 ∧ State.reset.regs.recIdx = 0#32 ∧ State.reset.regs.outValid = false ∧
  State.reset.regs.outRe = 0x00000000#32 ∧ State.reset.regs.outIm = 0x00000000#32 ∧ State.reset.regs.outSc = 0#16 ∧
  State.reset.regs.outRec = 0#32 ∧ State.reset.regs.err = 0#8 ∧ State.reset.regs.errOp = 0#3 ∧ State.reset.regs.errArg = 0#32 ∧
  State.reset.regs.status = 0x00000000#32 ∧ State.reset.regs.stateField = 0#2

/-! CONFIG -/

/-- CONFIG, the word with `op` 2 and its fields, outside the ERROR state: the four errors in their order, and otherwise the new pass
(40_control.md R103). -/
def Obligations.ConfigFollowsItsRule : Prop :=
  ∀ (rsvHi : BitVec 16) (bw : BitVec 8) (rsvLo fmt : BitVec 4) (s : State), s.regs.err = 0#8 →
    let arg : Word := rsvHi ++ bw ++ rsvLo ++ fmt
    decode s.regs.cfgFmt (2#3 ++ arg) = .ok (.config rsvHi bw rsvLo fmt) ∧
    ((rsvHi ≠ 0#16 ∨ rsvLo ≠ 0#4) → exec (.config rsvHi bw rsvLo fmt) s = .next (s.afterError 1#8 2#3 arg)) ∧
    (rsvHi = 0#16 → rsvLo = 0#4 → s.regs.scIdx ≠ 0#16 →
      exec (.config rsvHi bw rsvLo fmt) s = .next (s.afterError 5#8 2#3 arg)) ∧
    (rsvHi = 0#16 → rsvLo = 0#4 → s.regs.scIdx = 0#16 → 3 ≤ fmt.toNat →
      exec (.config rsvHi bw rsvLo fmt) s = .next (s.afterError 2#8 2#3 arg)) ∧
    (rsvHi = 0#16 → rsvLo = 0#4 → s.regs.scIdx = 0#16 → fmt.toNat < 3 → bw.toNat ∉ [20, 40, 80, 160] →
      exec (.config rsvHi bw rsvLo fmt) s = .next (s.afterError 3#8 2#3 arg)) ∧
    (rsvHi = 0#16 → rsvLo = 0#4 → s.regs.scIdx = 0#16 → fmt.toNat < 3 → ∀ n : Nat,
      (bw.toNat, n) ∈ [(20, 64), (40, 128), (80, 256), (160, 512)] →
      exec (.config rsvHi bw rsvLo fmt) s = .next (s.afterConfig fmt bw (BitVec.ofNat 16 n)))

/-! READ -/

/-- READ, the word with `op` 4 and its fields: of a legal register it answers its value and changes nothing, in any state; an illegal
READ outside the ERROR state raises ERR_CMD. Before any PUSH since reset, OUT_RE and OUT_VALID are 0 (40_control.md R105). -/
def Obligations.ReadFollowsItsRule : Prop :=
  (∀ (rsv : BitVec 24) (n : BitVec 8) (s : State),
    decode s.regs.cfgFmt (4#3 ++ (rsv ++ n)) = .ok (.read rsv n) ∧
    (rsv = 0#24 → n.toNat ≤ 0x0A →
      ∃ v, regRead s.regs n = some v ∧ exec (.read rsv n) s = .next (s.afterResponse ⟨.data, v, 0#32, 0#32, 0#32⟩)) ∧
    (s.regs.err = 0#8 → (rsv ≠ 0#24 ∨ 0x0A < n.toNat) →
      exec (.read rsv n) s = .next (s.afterError 1#8 4#3 (rsv ++ n)))) ∧
  ∀ (evs : List HostEvent) (t : State), answersAll evs t → (∀ c, .cmd c ∈ evs → Command.op c ≠ 3#3) →
    regRead t.regs 0x05#8 = some 0x00000000#32 ∧ t.regs.status.getLsbD 9 = false

/-- The register map: what each number reads as, as a number built from the fields, the reserved bits 0; STATUS and its STATE
field; nothing from 0x0B up (10_state.md R23, R35). -/
def Obligations.RegisterMapValues : Prop :=
  ∀ r : Regs,
    let st := if r.err ≠ 0#8 then 2 else if r.cfgCv then 1 else 0
    ((regRead r 0x00#8).map BitVec.toNat = some (r.err.toNat + r.cfgCv.toNat * 2 ^ 8 + r.outValid.toNat * 2 ^ 9 + st * 2 ^ 10)) ∧
    ((regRead r 0x01#8).map BitVec.toNat = some (r.cfgFmt.toNat + r.cfgBw.toNat * 2 ^ 8 + r.cfgCv.toNat * 2 ^ 31)) ∧
    ((regRead r 0x02#8).map BitVec.toNat = some r.nsub.toNat) ∧
    ((regRead r 0x03#8).map BitVec.toNat = some r.scIdx.toNat) ∧
    (regRead r 0x04#8 = some r.recIdx) ∧
    (regRead r 0x05#8 = some r.outRe) ∧
    (regRead r 0x06#8 = some r.outIm) ∧
    ((regRead r 0x07#8).map BitVec.toNat = some r.outSc.toNat) ∧
    (regRead r 0x08#8 = some r.outRec) ∧
    ((regRead r 0x09#8).map BitVec.toNat = some r.errOp.toNat) ∧
    (regRead r 0x0A#8 = some r.errArg) ∧
    (∀ n : BitVec 8, 0x0A < n.toNat → regRead r n = none)

/-- READ can observe every component: two states with equal reads are equal (60_exceptions.md R175). -/
def Obligations.ReadsDetermineTheState : Prop :=
  ∀ r r' : Regs, (∀ n : BitVec 8, n.toNat ≤ 0x0A → regRead r n = regRead r' n) → r = r'

/-! PUSH -/

/-- A PUSH of any form before a CONFIG raises ERR_NOCFG, records the word, gives no output and does not advance
(40_control.md R106, 60_exceptions.md R163); that a form does so whatever `CFG.FMT` is, is the model's choice (log entry 5). -/
def Obligations.PushWithoutConfigurationRaisesNoCfg : Prop :=
  ∀ (w : Word) (s : State), s.regs.err = 0#8 → s.regs.cfgCv = false →
    exec (.pushDirect w) s = .next (s.afterError 4#8 3#3 w) ∧
    exec (.pushBfp95 w) s = .next (s.afterError 4#8 3#3 w) ∧
    exec (.pushBfp126 w) s = .next (s.afterError 4#8 3#3 w)

/-- PUSH.DIRECT, PUSH under `CFG.FMT` 0: the low half is the real, the high half the imaginary component, each the two's-complement value of 16 bits
(41_direct.md R120, 40_control.md R106). -/
def Obligations.PushDirectResult : Prop :=
  ∀ (w : Word) (s : State), s.regs.err = 0#8 → s.regs.cfgCv = true → s.regs.cfgFmt = 0#4 →
    let sext16 := fun n : Nat => if n < 2 ^ 15 then (n : Int) else (n : Int) - 2 ^ 16
    decode s.regs.cfgFmt (3#3 ++ w) = .ok (.pushDirect w) ∧
    exec (.pushDirect w) s =
      .next (s.afterPush (f32 (sext16 (w.toNat % 2 ^ 16))) (f32 (sext16 (w.toNat / 2 ^ 16))))

/-- PUSH.BFP95, PUSH under `CFG.FMT` 1: the fields at bits 4:0, 12:5, 13, 21:14 and 22, sign-magnitude, times `2^(exp+10)`
(42_bfp.md R135, 40_control.md R106). -/
def Obligations.PushBfp95Result : Prop :=
  ∀ (w : Word) (s : State), s.regs.err = 0#8 → s.regs.cfgCv = true → s.regs.cfgFmt = 1#4 →
    let value := fun (sign mag : Nat) => (if sign = 1 then -(mag : Int) else mag) * 2 ^ (w.toNat % 2 ^ 5 + 10)
    decode s.regs.cfgFmt (3#3 ++ w) = .ok (.pushBfp95 w) ∧
    exec (.pushBfp95 w) s =
      .next (s.afterPush
        (f32 (value (w.toNat / 2 ^ 22 % 2) (w.toNat / 2 ^ 14 % 2 ^ 8)))
        (f32 (value (w.toNat / 2 ^ 13 % 2) (w.toNat / 2 ^ 5 % 2 ^ 8))))

/-- PUSH.BFP126, PUSH under `CFG.FMT` 2: the fields at bits 5:0, 16:6, 17, 28:18 and 29, sign-magnitude, times `2^(exp+10)`
(42_bfp.md R136, 40_control.md R106). -/
def Obligations.PushBfp126Result : Prop :=
  ∀ (w : Word) (s : State), s.regs.err = 0#8 → s.regs.cfgCv = true → s.regs.cfgFmt = 2#4 →
    let value := fun (sign mag : Nat) => (if sign = 1 then -(mag : Int) else mag) * 2 ^ (w.toNat % 2 ^ 6 + 10)
    decode s.regs.cfgFmt (3#3 ++ w) = .ok (.pushBfp126 w) ∧
    exec (.pushBfp126 w) s =
      .next (s.afterPush
        (f32 (value (w.toNat / 2 ^ 29 % 2) (w.toNat / 2 ^ 18 % 2 ^ 11)))
        (f32 (value (w.toNat / 2 ^ 17 % 2) (w.toNat / 2 ^ 6 % 2 ^ 11))))

/-- A step on a PUSH word outside the ERROR state: in a configured block the word is decoded under the format `CFG.FMT` selects, the
output registers and the response hold the output and its position, and the position advances; in an unconfigured one ERR_NOCFG is
raised (40_control.md R106, with `CFG.FMT` one of the three formats as 10_state.md R36 says). -/
def Obligations.StepPushUsesTheConfiguredFormat : Prop :=
  ∀ (f : Format) (w : Word) (s : State) (rest : List HostEvent), s.regs.err = 0#8 → s.regs.cfgFmt = f.code →
    s.cmdIn = .cmd (3#3 ++ w) :: rest →
    let value : Int × Int := match f with
      | .direct => directDecode w
      | .bfp95 => bfpDecode 9 5 w
      | .bfp126 => bfpDecode 12 6 w
    (s.regs.cfgCv = false → step s = .next (({ s with cmdIn := rest } : State).afterError 4#8 3#3 w)) ∧
    (s.regs.cfgCv = true → step s = .next (({ s with cmdIn := rest } : State).afterPush (f32 value.1) (f32 value.2)))

/-- After a PUSH that is answered SAMPLE the position has moved to the next subcarrier, or to subcarrier 0 of the next record modulo
2^32; where R36 holds the next subcarrier is at most 512 (40_control.md R107). -/
def Obligations.PushAdvancesThePosition : Prop :=
  ∀ (i : Instr) (w : Word) (s t : State), (i = .pushDirect w ∨ i = .pushBfp95 w ∨ i = .pushBfp126 w) →
    s.regs.err = 0#8 → s.regs.cfgCv = true → s.regs.scIdx < s.regs.nsub → exec i s = .next t →
    (s.regs.scIdx.toNat + 1 = s.regs.nsub.toNat →
      t.regs.scIdx = 0#16 ∧ t.regs.recIdx.toNat = (s.regs.recIdx.toNat + 1) % 2 ^ 32) ∧
    (s.regs.scIdx.toNat + 1 ≠ s.regs.nsub.toNat →
      t.regs.scIdx.toNat = s.regs.scIdx.toNat + 1 ∧ t.regs.recIdx = s.regs.recIdx) ∧
    (s.regs.inv → s.regs.scIdx.toNat + 1 ≤ 512)

/-! Frames -/

/-- Which commands write a component: the "written by" column of 10_state.md R20, as a frame of all commands. A component that is
not the same after a command was written by one of the commands named for it; the recorded error, by RESET or a command that was
answered ERROR. -/
def Obligations.EveryComponentHasItsWriters : Prop :=
  ∀ (i : Instr) (s t : State), exec i s = .next t →
    let isConfig := i.op = 2#3
    let isPush := i.op = 3#3
    let isReset := i.op = 1#3
    let raised := ∃ code, t.rspOut = s.rspOut ++ [⟨.error, code, 0#32, 0#32, 0#32⟩]
    (t.regs.cfgCv ≠ s.regs.cfgCv → isConfig ∨ isReset) ∧
    (t.regs.cfgFmt ≠ s.regs.cfgFmt → isConfig ∨ isReset) ∧
    (t.regs.cfgBw ≠ s.regs.cfgBw → isConfig ∨ isReset) ∧
    (t.regs.nsub ≠ s.regs.nsub → isConfig ∨ isReset) ∧
    (t.regs.scIdx ≠ s.regs.scIdx → isConfig ∨ isPush ∨ isReset) ∧
    (t.regs.recIdx ≠ s.regs.recIdx → isConfig ∨ isPush ∨ isReset) ∧
    (t.regs.outValid ≠ s.regs.outValid → isConfig ∨ isPush ∨ isReset) ∧
    (t.regs.outRe ≠ s.regs.outRe → isPush ∨ isReset) ∧
    (t.regs.outIm ≠ s.regs.outIm → isPush ∨ isReset) ∧
    (t.regs.outSc ≠ s.regs.outSc → isPush ∨ isReset) ∧
    (t.regs.outRec ≠ s.regs.outRec → isPush ∨ isReset) ∧
    (t.regs.err ≠ s.regs.err → raised ∨ isReset) ∧
    (t.regs.errOp ≠ s.regs.errOp → raised ∨ isReset) ∧
    (t.regs.errArg ≠ s.regs.errArg → raised ∨ isReset) ∧
    t.cmdIn = s.cmdIn

/-! Errors -/

/-- An error is precise: a command that leaves ERR nonzero where it was 0 changes nothing else, records its own code, `op` and `arg`
and answers ERROR (60_exceptions.md R163). -/
def Obligations.ErrorsArePrecise : Prop :=
  ∀ (i : Instr) (s t : State), s.regs.err = 0#8 → exec i s = .next t → t.regs.err ≠ 0#8 →
    t = s.afterError t.regs.err i.op i.arg

/-- The cause of each error, in the order of priority: which error a command raises outside the ERROR state, and that it raises none
otherwise (60_exceptions.md R164). -/
def Obligations.ErrorCausesInPriorityOrder : Prop :=
  ∀ (i : Instr) (s t : State), s.regs.err = 0#8 → exec i s = .next t →
    t.regs.err =
      (if i.noReserved = false then 1#8
       else if i.op = 2#3 ∧ s.regs.scIdx ≠ 0#16 then 5#8
       else if i.op = 2#3 ∧ 3 ≤ i.arg.toNat % 2 ^ 4 then 2#8
       else if i.op = 2#3 ∧ i.arg.toNat / 2 ^ 8 % 2 ^ 8 ∉ [20, 40, 80, 160] then 3#8
       else if i.op = 3#3 ∧ s.regs.cfgCv = false then 4#8
       else 0#8)

/-- In ERROR state NOP, RESET and a legal READ run; every other command changes nothing and answers IGNORED
(60_exceptions.md R165). -/
def Obligations.ErrorStateRunsOnlyThreeCommands : Prop :=
  ∀ (i : Instr) (s : State), s.regs.err ≠ 0#8 →
    match i with
    | .nop _ => exec i s = .next (s.afterResponse ⟨.none, 0#32, 0#32, 0#32, 0#32⟩)
    | .reset _ => exec i s = .next { (s.afterResponse ⟨.none, 0#32, 0#32, 0#32, 0#32⟩) with regs := Regs.reset }
    | .read rsv n =>
      (∀ v, rsv = 0#24 → regRead s.regs n = some v → exec i s = .next (s.afterResponse ⟨.data, v, 0#32, 0#32, 0#32⟩)) ∧
        ((rsv ≠ 0#24 ∨ 0x0A < n.toNat) → exec i s = .next (s.afterResponse ⟨.ignored, 0#32, 0#32, 0#32, 0#32⟩))
    | .config _ _ _ _ | .pushDirect _ | .pushBfp95 _ | .pushBfp126 _ | .reserved5 _ | .reserved67 _ _ =>
      exec i s = .next (s.afterResponse ⟨.ignored, 0#32, 0#32, 0#32, 0#32⟩)

/-- Only a reset leaves the ERROR state: along any run in which neither the RESET command nor the reset input comes, every component
keeps its value, the recorded error included; either of them clears everything (60_exceptions.md R166). -/
def Obligations.OnlyResetLeavesTheErrorState : Prop :=
  (∀ (s t : State) (k : Nat), s.regs.err ≠ 0#8 →
    (∀ e ∈ s.cmdIn, e ≠ .rst ∧ ∀ w, e = .cmd w → Command.op w ≠ 1#3) → runsTo k s t → t.regs = s.regs) ∧
  ∀ (s : State) (e : HostEvent) (rest : List HostEvent), s.cmdIn = e :: rest →
    (e = .rst ∨ ∃ w, e = .cmd w ∧ Command.op w = 1#3) → ∃ t, step s = .next t ∧ t.regs = Regs.reset

/-- A reserved operation, the word with `op` 5, 6 or 7 and any `arg`: outside the ERROR state it raises ERR_CMD with its whole `op`
recorded, and in ERROR state it is ignored (40_control.md R108). -/
def Obligations.ReservedOperationsRaiseErrCmd : Prop :=
  ∀ (arg : Word) (s : State) (i : Instr) (op : BitVec 3),
    (i, op) ∈ [(.reserved5 arg, 5#3), (.reserved67 0#1 arg, 6#3), (.reserved67 1#1 arg, 7#3)] →
    decode s.regs.cfgFmt (op ++ arg) = .ok i ∧
    (s.regs.err = 0#8 → exec i s = .next (s.afterError 1#8 op arg)) ∧
    (s.regs.err ≠ 0#8 → exec i s = .next (s.afterResponse ⟨.ignored, 0#32, 0#32, 0#32, 0#32⟩))

/-! Histories -/

/-- `CFG.CV` is 1 exactly when a CONFIG has succeeded since the last reset, over every history of commands and reset inputs
(10_state.md R26). -/
def Obligations.ConfiguredExactlyAfterSuccessfulConfig : Prop :=
  ∀ (evs : List HostEvent) (t : State), answersAll evs t →
    (t.regs.cfgCv = true ↔
      ∃ pre c post, evs = pre ++ .cmd c :: post ∧ Command.op c = 2#3 ∧ noReset post ∧
        t.rspOut[commandCount pre]? = some ⟨.none, 0#32, 0#32, 0#32, 0#32⟩)

/-- `OUT_VALID` is 1 exactly when a PUSH has been answered SAMPLE since the last successful CONFIG or reset, over every history of
commands and reset inputs; a successful CONFIG clears it and leaves the four output registers as they were (10_state.md R32). -/
def Obligations.OutputValidExactlyAfterPush : Prop :=
  (∀ (i : Instr) (s t : State), i.op = 2#3 → exec i s = .next t →
    t.rspOut = s.rspOut ++ [⟨.none, 0#32, 0#32, 0#32, 0#32⟩] →
    t.regs.outValid = false ∧ t.regs.outRe = s.regs.outRe ∧ t.regs.outIm = s.regs.outIm ∧ t.regs.outSc = s.regs.outSc ∧
      t.regs.outRec = s.regs.outRec) ∧
  ∀ (evs : List HostEvent) (t : State), answersAll evs t →
    (t.regs.outValid = true ↔
      ∃ pre c post rsp, evs = pre ++ .cmd c :: post ∧ Command.op c = 3#3 ∧ noReset post ∧
        t.rspOut[commandCount pre]? = some rsp ∧ rsp.kind = .sample ∧
        ∀ post₁ d post₂, post = post₁ ++ .cmd d :: post₂ → Command.op d = 2#3 →
          (t.rspOut[commandCount pre + 1 + commandCount post₁]?).map Response.kind ≠ some .none)

/-- `ERR` is 0 when no error has been raised since reset, and otherwise holds the code of the error answered since then, with the
command that raised it, over every history of commands and reset inputs (10_state.md R33, R34). -/
def Obligations.ErrorRegistersHoldTheErrorSinceReset : Prop :=
  ∀ (evs : List HostEvent) (t : State), answersAll evs t →
    (t.regs.err ≠ 0#8 →
      ∃ pre c post, evs = pre ++ .cmd c :: post ∧ noReset (.cmd c :: post) ∧
        t.rspOut[commandCount pre]? = some ⟨.error, BitVec.setWidth 32 t.regs.err, 0#32, 0#32, 0#32⟩) ∧
    (∀ pre c post rsp, evs = pre ++ .cmd c :: post → noReset post → t.rspOut[commandCount pre]? = some rsp → rsp.kind = .error →
      t.regs.err ≠ 0#8 ∧ rsp.d0 = BitVec.setWidth 32 t.regs.err ∧ t.regs.errOp = Command.op c ∧ t.regs.errArg = Command.arg c) ∧
    (t.regs.err = 0#8 → t.regs.errOp = 0#3 ∧ t.regs.errArg = 0#32)

/-- Response n belongs to command n and depends on no later event: longer histories from reset begin with the same responses, and
there is one per command, none for a reset input (20_memory.md R58). -/
def Obligations.ResponsesFollowCommandOrder : Prop :=
  ∀ (evs more : List HostEvent) (t u : State), answersAll evs t → answersAll (evs ++ more) u →
    t.rspOut.length = commandCount evs ∧ u.rspOut.take (commandCount evs) = t.rspOut

/-! Passes -/

/-- A pass driven as 70_reset_and_hazards.md R193 says fills the matrix row by row: output `k` is the word `k` decoded, at record
`k div NSUB` modulo 2^32 and subcarrier `k mod NSUB`; no error is raised, and the position after the pass is that of the next
output. This is 40_control.md's statement of R104, which the spec marks as derived. -/
def Obligations.PassFillsTheMatrixInOrder : Prop :=
  ∀ (f : Format) (bw : BitVec 8) (n : BitVec 16) (ws : List Word), nsubOf bw = some n →
    ∃ t : State, runsTo (ws.length + 2) { State.reset with cmdIn := passEvents f bw ws } t ∧
      t.cmdIn = [] ∧
      t.rspOut = Response.nothing :: Response.nothing :: passSamples f n.toNat 0 ws ∧
      t.regs.err = 0#8 ∧ t.regs.scIdx.toNat = ws.length % n.toNat ∧ t.regs.recIdx.toNat = ws.length / n.toNat % 2 ^ 32

/-- A pass is whole exactly when its words are a whole number of records, and then its record count modulo 2^32 stands in REC_IDX; its
result is its SAMPLE responses, one per word (70_reset_and_hazards.md R194); how `passResult` is told them is the model's reading (log
entry 20). -/
def Obligations.PassIsWholeOnWholeRecords : Prop :=
  ∀ (f : Format) (bw : BitVec 8) (n : BitVec 16) (ws : List Word) (t : State), nsubOf bw = some n →
    runsTo (ws.length + 2) { State.reset with cmdIn := passEvents f bw ws } t →
    (passWhole t = true ↔ n.toNat ∣ ws.length) ∧
    (∀ c, ws.length = c * n.toNat → t.regs.recIdx = BitVec.ofNat 32 c) ∧
    passResult t (t.rspOut.drop 2) = some (passSamples f n.toNat 0 ws)

/-! The number format -/

/-- The conversion is exact on every integer of its domain: the binary32 word stands for the integer itself. The domain is the one
30_encoding.md's R84 writes beside the definition and R85 infers for the block. -/
def Obligations.F32IsExactOnItsDomain : Prop :=
  ∀ (v : Int) (m k : Nat), v.natAbs = m * 2 ^ k → m < 2 ^ 24 → v.natAbs < 2 ^ 128 → f32Value (f32 v) = some (v : ℚ)

/-- Every output word is +0.0 or a normal number, with a biased exponent from 127 to 142 under DIRECT and from 137 to 210 under the
block-floating-point formats: no NaN, infinity, subnormal or -0.0. 30_encoding.md's R85, which the spec marks as derived. -/
def Obligations.OutputsAreZeroOrNormal : Prop :=
  ∀ (f : Format) (w : Word), ∀ x ∈ [(outputsOf f w).1, (outputsOf f w).2],
    x = 0#32 ∨ (f = .direct ∧ 127 ≤ f32Exponent x ∧ f32Exponent x ≤ 142) ∨ (f ≠ .direct ∧ 137 ≤ f32Exponent x ∧ f32Exponent x ≤ 210)

/-- Every pair of 16-bit integers, written by PUSHIQ and decoded, comes back exactly, and so do its two output words. 41_direct.md's
R122, which the spec marks as derived. -/
def Obligations.DirectRoundTripIsExact : Prop :=
  ∀ a b : Int, -32768 ≤ a → a ≤ 32767 → -32768 ≤ b → b ≤ 32767 →
    directDecode (directWord a b) = (a, b) ∧
    f32Value (directOutputs (directWord a b)).1 = some (a : ℚ) ∧ f32Value (directOutputs (directWord a b)).2 = some (b : ℚ)

/-- The two lanes of a DIRECT word are independent: each output depends on its own 16 bits alone. 41_direct.md's R123, which the spec
marks as derived. -/
def Obligations.DirectLanesAreIndependent : Prop :=
  ∀ w w' : Word,
    (BitVec.extractLsb' 0 16 w = BitVec.extractLsb' 0 16 w' ↔ (directOutputs w).1 = (directOutputs w').1) ∧
    (BitVec.extractLsb' 16 16 w = BitVec.extractLsb' 16 16 w' ↔ (directOutputs w).2 = (directOutputs w').2)

/-! Block floating point -/

/-- Fields that fit are read back from the word they make, in both formats (30_encoding.md R80, R81, R82, R87). -/
def Obligations.BfpFieldsRoundTrip : Prop :=
  ∀ (m e : Nat) (g : BfpFields), (m, e) = (9, 5) ∨ (m, e) = (12, 6) → g.fits m e → bfpFields m e (bfpWord m e g) = g

/-- Every word is legal in both formats, and the bits from `2M+E` up change nothing: in a block configured for the format no PUSH raises
an error, and words equal below those bits have the same effect (42_bfp.md R137). -/
def Obligations.UnusedBitsChangeNothing : Prop :=
  ∀ (w w' : Word) (s : State), s.regs.err = 0#8 → s.regs.cfgCv = true →
    (s.regs.cfgFmt = 1#4 →
      (∃ t, exec (.pushBfp95 w) s = .next t ∧ t.regs.err = 0#8) ∧
      (w.toNat % 2 ^ 23 = w'.toNat % 2 ^ 23 → exec (.pushBfp95 w) s = exec (.pushBfp95 w') s)) ∧
    (s.regs.cfgFmt = 2#4 →
      (∃ t, exec (.pushBfp126 w) s = .next t ∧ t.regs.err = 0#8) ∧
      (w.toNat % 2 ^ 30 = w'.toNat % 2 ^ 30 → exec (.pushBfp126 w) s = exec (.pushBfp126 w') s))

/-- Adding 1 to an exponent field that has a successor doubles both components, and adds 1 to the biased exponent of each output word
that is not zero. 42_bfp.md's R139, which the spec marks as derived. -/
def Obligations.ExponentStepDoublesBothComponents : Prop :=
  ∀ (m e : Nat) (w : Word), (m, e) = (9, 5) ∨ (m, e) = (12, 6) → w.toNat % 2 ^ e < 2 ^ e - 1 →
    bfpDecode m e (w + 1#32) = (2 * (bfpDecode m e w).1, 2 * (bfpDecode m e w).2) ∧
    ((bfpDecode m e w).1 ≠ 0 → f32 (bfpDecode m e (w + 1#32)).1 = f32 (bfpDecode m e w).1 + 0x00800000#32) ∧
    ((bfpDecode m e w).2 ≠ 0 → f32 (bfpDecode m e (w + 1#32)).2 = f32 (bfpDecode m e w).2 + 0x00800000#32)

/-- Setting one sign bit negates that component and leaves the other; where the component is 0 its output word does not change.
42_bfp.md's R140, which the spec marks as derived. -/
def Obligations.SignBitsNegateTheirOwnComponent : Prop :=
  ∀ (m e : Nat) (w : Word), (m, e) = (9, 5) ∨ (m, e) = (12, 6) →
    (w.getLsbD (e + 2 * m - 1) = false →
      bfpDecode m e (w ||| BitVec.twoPow 32 (e + 2 * m - 1)) = (-(bfpDecode m e w).1, (bfpDecode m e w).2)) ∧
    (w.getLsbD (e + m - 1) = false →
      bfpDecode m e (w ||| BitVec.twoPow 32 (e + m - 1)) = ((bfpDecode m e w).1, -(bfpDecode m e w).2))

/-- Both components carry the same power of two, so their ratio is the ratio of the signed mantissas, whatever the exponent.
42_bfp.md's R141, which the spec marks as derived. -/
def Obligations.OneExponentScalesBothComponents : Prop :=
  ∀ (m e : Nat) (w : Word),
    let g := bfpFields m e w
    ∃ k, k = g.exp + 10 ∧
      (bfpDecode m e w).1 * signedMantissa g.imS g.imMag = (bfpDecode m e w).2 * signedMantissa g.reS g.reMag ∧
      (bfpDecode m e w).1.natAbs = g.reMag * 2 ^ k ∧ (bfpDecode m e w).2.natAbs = g.imMag * 2 ^ k

/-- The range of a nonzero component: at least 2^10 and at most the largest magnitude times the largest scale. 42_bfp.md's R134, which
the spec marks as derived. -/
def Obligations.ComponentRange : Prop :=
  ∀ w : Word,
    (∀ v ∈ [(bfpDecode 9 5 w).1, (bfpDecode 9 5 w).2], v ≠ 0 →
      2 ^ 10 ≤ v.natAbs ∧ v.natAbs ≤ 255 * 2 ^ 41 ∧ v.natAbs < 2 ^ 49) ∧
    (∀ v ∈ [(bfpDecode 12 6 w).1, (bfpDecode 12 6 w).2], v ≠ 0 →
      2 ^ 10 ≤ v.natAbs ∧ v.natAbs ≤ 2047 * 2 ^ 73 ∧ v.natAbs < 2 ^ 84)

/-- The signed reading of the exponent field: where its top bit is clear both readings give the same output words, and in every case
the words stand exactly for the mantissa times `2^k` with `k` the two's-complement exponent plus 10. 42_bfp.md's R138 says so of
the parameter `EXP_SIGNED`; how `F32` is read there is the model's inference (log entry 15). -/
def Obligations.SignedExponentReadingIsExact : Prop :=
  ∀ (m e : Nat) (w : Word), (m, e) = (9, 5) ∨ (m, e) = (12, 6) →
    let g := bfpFields m e w
    let k : Int := (if g.exp < 2 ^ (e - 1) then (g.exp : Int) else (g.exp : Int) - 2 ^ e) + 10
    (g.exp < 2 ^ (e - 1) → bfpOutputs true m e w = bfpOutputs false m e w) ∧
    f32Value (bfpOutputs true m e w).1 = some ((signedMantissa g.reS g.reMag : ℚ) * 2 ^ k) ∧
    f32Value (bfpOutputs true m e w).2 = some ((signedMantissa g.imS g.imMag : ℚ) * 2 ^ k)

/-! The host's side -/

/-- How 4 bytes make a word under each value of `PAYLOAD_BYTE_ORDER` (20_memory.md R53). -/
def Obligations.PayloadWordOfBytes : Prop :=
  ∀ b0 b1 b2 b3 : Byte,
    (payloadWord .le b0 b1 b2 b3).toNat = b0.toNat + b1.toNat * 2 ^ 8 + b2.toNat * 2 ^ 16 + b3.toNat * 2 ^ 24 ∧
    (payloadWord .be b0 b1 b2 b3).toNat = b3.toNat + b2.toNat * 2 ^ 8 + b1.toNat * 2 ^ 16 + b0.toNat * 2 ^ 24 ∧
    Config.payloadByteOrder = .le

/-- Word `sc` of a list of bytes is made of its bytes `4·sc` to `4·sc + 3`, and every list of a whole number of words has its words.
For the `nsub · 4` bytes of a record this is 20_memory.md's R52. That bytes of any other length which is a multiple of 4 are read
the same way, and that those of every other length have no words, is the model's choice (log entry 19). -/
def Obligations.RecordBytesMakeItsWords : Prop :=
  ∀ (order : ByteOrder) (bytes : List Byte),
    (4 ∣ bytes.length → ∃ ws, payloadWords order bytes = some ws) ∧
    ∀ ws, payloadWords order bytes = some ws →
      bytes.length = 4 * ws.length ∧
      ∀ sc w, ws[sc]? = some w →
        ∃ b0 b1 b2 b3, bytes[4 * sc]? = some b0 ∧ bytes[4 * sc + 1]? = some b1 ∧ bytes[4 * sc + 2]? = some b2 ∧
          bytes[4 * sc + 3]? = some b3 ∧ w = payloadWord order b0 b1 b2 b3

/-- The mixed-width views under `LE`: the first two bytes are the real value and the last two the imaginary one, low byte first; the
exponent stands in the first byte, the real sign in the third or fourth. 20_memory.md's R54 and R55, which the spec marks as
derived. -/
def Obligations.LittleEndianViews : Prop :=
  ∀ b0 b1 b2 b3 : Byte,
    directDecode (payloadWord .le b0 b1 b2 b3) = ((b1 ++ b0).toInt, (b3 ++ b2).toInt) ∧
    (bfpFields 9 5 (payloadWord .le b0 b1 b2 b3)).exp = b0.toNat % 2 ^ 5 ∧
    (bfpFields 9 5 (payloadWord .le b0 b1 b2 b3)).reS = b2.getLsbD 6 ∧
    (bfpFields 12 6 (payloadWord .le b0 b1 b2 b3)).exp = b0.toNat % 2 ^ 6 ∧
    (bfpFields 12 6 (payloadWord .le b0 b1 b2 b3)).reS = b3.getLsbD 5

/-- The assembler's table: the word of each statement within its ranges, and the command it decodes to under every format; a number
out of its range is refused and never truncated; and what it writes, `.cmd` aside, has no reserved operation and no reserved bit
(30_encoding.md R86). -/
def Obligations.AssemblerWritesOnlyLegalForms : Prop :=
  (assemble .nop = some (0#3 ++ 0x00000000#32) ∧ assemble .reset = some (1#3 ++ 0x00000000#32)) ∧
  (∀ (fmt bw : Nat) (f : Format), fmt ≤ 15 → bw ≤ 255 → ∃ w, assemble (.config fmt bw) = some w ∧
    w.toNat = 2 * 2 ^ 32 + bw * 2 ^ 8 + fmt ∧ decode f.code w = .ok (.config 0#16 (BitVec.ofNat 8 bw) 0#4 (BitVec.ofNat 4 fmt))) ∧
  (∀ n : Nat, n < 2 ^ 32 → ∃ w, assemble (.push n) = some w ∧ w.toNat = 3 * 2 ^ 32 + n ∧
    decode 0#4 w = .ok (.pushDirect (BitVec.ofNat 32 n)) ∧ decode 1#4 w = .ok (.pushBfp95 (BitVec.ofNat 32 n)) ∧
    decode 2#4 w = .ok (.pushBfp126 (BitVec.ofNat 32 n))) ∧
  (∀ (n : Nat) (f : Format), n ≤ 255 → ∃ w, assemble (.read n) = some w ∧ w.toNat = 4 * 2 ^ 32 + n ∧
    decode f.code w = .ok (.read 0#24 (BitVec.ofNat 8 n))) ∧
  (∀ op arg : Nat, op < 8 → arg < 2 ^ 32 → ∃ w, assemble (.cmd op arg) = some w ∧ w.toNat = op * 2 ^ 32 + arg) ∧
  (∀ (line : AsmLine) (w : Command) (f : Format), assemble line = some w → (∀ op arg, line ≠ .cmd op arg) →
    ∃ i, decode f.code w = .ok i ∧ i.writable = true) ∧
  (∀ fmt bw, assemble (.config fmt bw) ≠ none ↔ fmt ≤ 15 ∧ bw ≤ 255) ∧
  (∀ n, assemble (.read n) ≠ none ↔ n ≤ 255) ∧
  (∀ w, assemble (.push w) ≠ none ↔ w < 2 ^ 32) ∧
  ∀ op arg, assemble (.cmd op arg) ≠ none ↔ op < 8 ∧ arg < 2 ^ 32

/-- Each pseudo-instruction takes the operands in its ranges and makes the PUSH whose payload word has them as its fields
(30_encoding.md R87). -/
def Obligations.PseudoInstructionsMakeTheirPush : Prop :=
  (∀ re im : Int, assemble (.pushIq re im) ≠ none ↔ (-32768 ≤ re ∧ re ≤ 32767) ∧ (-32768 ≤ im ∧ im ≤ 32767)) ∧
  (∀ rs rm is im e : Nat, assemble (.pushB95 rs rm is im e) ≠ none ↔ rs ≤ 1 ∧ rm ≤ 255 ∧ is ≤ 1 ∧ im ≤ 255 ∧ e ≤ 31) ∧
  (∀ rs rm is im e : Nat, assemble (.pushB126 rs rm is im e) ≠ none ↔ rs ≤ 1 ∧ rm ≤ 2047 ∧ is ≤ 1 ∧ im ≤ 2047 ∧ e ≤ 63) ∧
  (∀ (re im : Int) (w : Command), assemble (.pushIq re im) = some w → Command.op w = 3#3 ∧ directDecode (Command.arg w) = (re, im)) ∧
  (∀ (rs rm is im e : Nat) (w : Command), assemble (.pushB95 rs rm is im e) = some w →
    Command.op w = 3#3 ∧ (Command.arg w).toNat = rs * 2 ^ 22 + rm * 2 ^ 14 + is * 2 ^ 13 + im * 2 ^ 5 + e) ∧
  (∀ (rs rm is im e : Nat) (w : Command), assemble (.pushB126 rs rm is im e) = some w →
    Command.op w = 3#3 ∧ (Command.arg w).toNat = rs * 2 ^ 29 + rm * 2 ^ 18 + is * 2 ^ 17 + im * 2 ^ 6 + e)

/-! Several blocks -/

/-- A step of one block of several is that block's own step: it puts the block's next state in its place and leaves every other block
as it was, and steps of two blocks may be taken in either order (20_memory.md R60). That one named block steps at a time is the
model's choice (log entry 18). -/
def Obligations.BlocksShareNothing : Prop :=
  (∀ (k : Nat) (blocks : List State) (s t : State), blocks[k]? = some s → step s = .next t →
    ∃ after, stepAt k blocks = .next after ∧ after = blocks.set k t ∧ after[k]? = some t) ∧
  (∀ (j k : Nat) (blocks after : List State), stepAt k blocks = .next after → j ≠ k → after[j]? = blocks[j]?) ∧
  ∀ (j k : Nat) (a b c : List State), j ≠ k → stepAt j a = .next b → stepAt k b = .next c →
    ∃ b', stepAt k a = .next b' ∧ stepAt j b' = .next c

/-! The port realisation -/

/-- The port cannot be told from the transaction machine at its response stream: after any inputs since power-on, the commands accepted
since the last reset are those answered followed by those waiting, and the responses taken since then and offered, and the registers,
are those the transaction machine gives for the answered ones; and the signals show the oldest response not yet taken, its kind by the codes 0 to 4,
while `rst` is low (70_reset_and_hazards.md R200, 30_encoding.md R78). The family of realisations is the model's choice (log entry
9); that it holds over inputs with `rst` rests on the model's reading that `rst` drops an offered response not yet taken (log entry
10). -/
def Obligations.PortRefinesTheTransactionMachine : Prop :=
  (∀ ins : List PinsIn,
    let t := PortTrace.start.run ins
    ∃ answered waiting : List Command,
      t.accepted = answered ++ waiting ∧ t.port.core.cmdIn = waiting.map .cmd ∧
      answersAll (answered.map .cmd) { regs := t.port.core.regs, cmdIn := [], rspOut := t.taken ++ t.port.core.rspOut }) ∧
  (∀ (p : Port) (rsp : Response) (rest : List Response), p.core.rspOut = rsp :: rest →
    (p.pins false).rspValid = true ∧ (p.pins false).rspKind = rsp.kind.code ∧ (p.pins false).rspD0 = rsp.d0 ∧
      (p.pins false).rspD1 = rsp.d1 ∧ (p.pins false).rspD2 = rsp.d2 ∧ (p.pins false).rspD3 = rsp.d3) ∧
  (∀ p : Port, p.core.rspOut = [] → (p.pins false).rspValid = false) ∧
  ResponseKind.none.code = 0#3 ∧ ResponseKind.data.code = 1#3 ∧ ResponseKind.sample.code = 2#3 ∧
  ResponseKind.error.code = 3#3 ∧ ResponseKind.ignored.code = 4#3

/-- A port state stays one at every edge: R36 holds, only commands wait, at most one response is held; power-on reset is one
(70_reset_and_hazards.md R200). That the port holds no second response is the model's choice (log entry 9). -/
def Obligations.PortKeepsItsInvariant : Prop :=
  Port.reset.inv ∧ ∀ (p : Port) (i : PinsIn), p.inv → (p.tick i).inv

/-- An offered response keeps its fields until the host takes it (70_reset_and_hazards.md R200). That `err` holds still meanwhile is
the model's choice: its port answers no waiting command while a response is offered (log entries 9 and 14). -/
def Obligations.OfferedResponseIsStable : Prop :=
  ∀ (p : Port) (i : PinsIn), p.inv → i.rst = false → p.rspValid false = true → i.rspReady = false →
    (p.tick i).pins false = { (p.pins false) with cmdReady := ((p.tick i).pins false).cmdReady }

/-- While `rst` is high nothing is accepted and nothing offered, and the edge leaves every component at its reset value with nothing
waiting; a command may be accepted at the next edge without `rst` (70_reset_and_hazards.md R200, R201). That an offered response is
dropped is the model's reading (log entry 10), and that `cmd_ready` is high at once after `rst` is its choice (log entry 22). -/
def Obligations.PortResetClearsEverything : Prop :=
  ∀ (p : Port) (i : PinsIn), i.rst = true →
    (p.pins i.rst).cmdReady = false ∧ (p.pins i.rst).rspValid = false ∧ p.accepts i = false ∧ p.taken i = false ∧ (p.tick i).core = State.reset ∧
    ((p.tick i).pins false).cmdReady = true ∧ ((p.tick i).pins false).rspValid = false

/-- While `rst` is low and no response is offered, the first waiting command is answered within the cycles its latency still asks for:
no hang (70_reset_and_hazards.md R199). The bound, and what the latency counts from, are the model's choice (log entry 9). -/
def Obligations.WaitingCommandIsAnswered : Prop :=
  ∀ (p : Port) (ins : List PinsIn), p.inv → p.core.cmdIn ≠ [] → p.core.rspOut = [] → ins.length = p.wait + 1 →
    (∀ i ∈ ins, i.rst = false) → (ins.foldl Port.tick p).core.rspOut ≠ []

/-- The level `err` is `ERR != 0`; it rises at an edge only with the ERROR response of the erroring command, and falls only at reset
(60_exceptions.md R167). -/
def Obligations.ErrorLevelFollowsTheResponse : Prop :=
  ∀ (p : Port) (i : PinsIn), p.inv →
    (p.pins false).err = decide (p.core.regs.err ≠ 0#8) ∧
    ((p.pins false).err = false → ((p.tick i).pins false).err = true →
      ((p.tick i).pins false).rspValid = true ∧ ((p.tick i).pins false).rspKind = 3#3) ∧
    ((p.pins false).err = true → i.rst = false → Command.op i.command ≠ 1#3 →
      (∀ w, .cmd w ∈ p.core.cmdIn → Command.op w ≠ 1#3) → ((p.tick i).pins false).err = true)
end

