-- ==== Sys2Proof/Laws/Decode.lean ====
section
/-! SUPPORT. The fields of a command word and of its `arg`: taking apart what was put together, and putting together what was taken
apart (30_encoding.md R71, R74, R76). -/

namespace Sys2Proof

@[simp] theorem Command.op_mk (op : BitVec 3) (arg : Word) : Command.op (Command.mk op arg) = op := by
  unfold Command.op Command.mk
  rw [BitVec.extractLsb'_append_eq_of_le (by omega)]
  simp

@[simp] theorem Command.arg_mk (op : BitVec 3) (arg : Word) : Command.arg (Command.mk op arg) = arg := by
  unfold Command.arg Command.mk
  rw [BitVec.extractLsb'_append_eq_of_add_le (by omega)]
  simp

/-- A concatenation as a number. -/
theorem append_toNat {m n : Nat} (x : BitVec m) (y : BitVec n) : (x ++ y).toNat = x.toNat * 2 ^ n + y.toNat := by
  rw [BitVec.toNat_append, ← Nat.shiftLeft_add_eq_or_of_lt y.isLt, Nat.shiftLeft_eq]

/-- One bit of a word as a digit of its number. -/
theorem getLsbD_eq_decide {n : Nat} (x : BitVec n) (k : Nat) : x.getLsbD k = decide (x.toNat / 2 ^ k % 2 = 1) := by
  simp [BitVec.getLsbD, Nat.testBit_eq_decide_div_mod_eq]

/-- A word is its two fields. -/
theorem Command.mk_op_arg (cmd : Command) : Command.mk (Command.op cmd) (Command.arg cmd) = cmd := by
  apply BitVec.eq_of_getLsbD_eq
  intro i hi
  simp only [Command.mk, Command.op, Command.arg, BitVec.getLsbD_append, BitVec.getLsbD_extractLsb']
  split
  · simp_all
  · have : i - 32 < 3 := by omega
    have h2 : 32 + (i - 32) = i := by omega
    simp [this, h2]

@[simp] theorem encode_op (i : Instr) : Command.op (encode i) = i.op := Command.op_mk _ _

@[simp] theorem encode_arg (i : Instr) : Command.arg (encode i) = i.arg := Command.arg_mk _ _

/-- A CONFIG's `arg` gives its four fields back. -/
@[simp] theorem decodeConfig_configArg (rsvHi : BitVec 16) (bw : BitVec 8) (rsvLo fmt : BitVec 4) :
    decodeConfig (configArg rsvHi bw rsvLo fmt) = .config rsvHi bw rsvLo fmt := by
  simp only [decodeConfig, configArg, Instr.config.injEq]
  refine ⟨?_, ?_, ?_, ?_⟩
  · rw [BitVec.extractLsb'_append_eq_of_le (by omega), BitVec.extractLsb'_append_eq_of_le (by omega),
      BitVec.extractLsb'_append_eq_of_le (by omega)]
    simp
  · rw [BitVec.extractLsb'_append_eq_of_le (by omega), BitVec.extractLsb'_append_eq_of_le (by omega),
      BitVec.extractLsb'_append_eq_of_add_le (by omega)]
    simp
  · rw [BitVec.extractLsb'_append_eq_of_le (by omega), BitVec.extractLsb'_append_eq_of_add_le (by omega)]
    simp
  · rw [BitVec.extractLsb'_append_eq_of_add_le (by omega)]
    simp

/-- An `arg` is made of the four fields CONFIG reads in it. -/
theorem configArg_fields (arg : Word) :
    configArg (BitVec.extractLsb' 16 16 arg) (BitVec.extractLsb' 8 8 arg) (BitVec.extractLsb' 4 4 arg) (BitVec.extractLsb' 0 4 arg)
      = arg := by
  apply BitVec.eq_of_getLsbD_eq
  intro i hi
  simp only [configArg, BitVec.getLsbD_append, BitVec.getLsbD_extractLsb']
  split
  · simp_all
  · split
    · have h1 : i - 4 < 4 := by omega
      have h2 : 4 + (i - 4) = i := by omega
      simp [h1, h2]
    · split
      · have h1 : i - 4 - 4 < 8 := by omega
        have h2 : 8 + (i - 4 - 4) = i := by omega
        simp [h1, h2]
      · have h1 : i - 4 - 4 - 8 < 16 := by omega
        have h2 : 16 + (i - 4 - 4 - 8) = i := by omega
        simp [h1, h2]

/-- A READ's `arg` gives its two fields back. -/
@[simp] theorem decodeRead_readArg (rsv : BitVec 24) (n : BitVec 8) : decodeRead (readArg rsv n) = .read rsv n := by
  simp only [decodeRead, readArg, Instr.read.injEq]
  constructor
  · rw [BitVec.extractLsb'_append_eq_of_le (by omega)]; simp
  · rw [BitVec.extractLsb'_append_eq_of_add_le (by omega)]; simp

/-- An `arg` is made of the two fields READ reads in it. -/
theorem readArg_fields (arg : Word) : readArg (BitVec.extractLsb' 8 24 arg) (BitVec.extractLsb' 0 8 arg) = arg := by
  apply BitVec.eq_of_getLsbD_eq
  intro i hi
  simp only [readArg, BitVec.getLsbD_append, BitVec.getLsbD_extractLsb']
  split
  · simp_all
  · have h1 : i - 8 < 24 := by omega
    have h2 : 8 + (i - 8) = i := by omega
    simp [h1, h2]

@[simp] theorem Format.ofCode_code (f : Format) : Format.ofCode f.code = some f := by
  cases f <;> rfl

/-- The codes that name a format are those of the three formats (30_encoding.md R75). -/
theorem Format.ofCode_eq_some {fmt : BitVec 4} {f : Format} (h : Format.ofCode fmt = some f) : fmt = f.code := by
  unfold Format.ofCode at h
  split at h
  · next h0 => cases h; exact h0
  · split at h
    · next h1 => cases h; exact h1
    · split at h
      · next h2 => cases h; exact h2
      · cases h

/-- The legal bandwidths and their subcarrier counts (10_state.md R27). -/
theorem nsubOf_eq_some {bw : BitVec 8} {n : BitVec 16} (h : nsubOf bw = some n) :
    (bw = 20#8 ∧ n = 64#16) ∨ (bw = 40#8 ∧ n = 128#16) ∨ (bw = 80#8 ∧ n = 256#16) ∨ (bw = 160#8 ∧ n = 512#16) := by
  unfold nsubOf at h
  split at h
  · next h0 => cases h; exact .inl ⟨h0, rfl⟩
  · split at h
    · next h1 => cases h; exact .inr (.inl ⟨h1, rfl⟩)
    · split at h
      · next h2 => cases h; exact .inr (.inr (.inl ⟨h2, rfl⟩))
      · split at h
        · next h3 => cases h; exact .inr (.inr (.inr ⟨h3, rfl⟩))
        · cases h

/-- The eight values of `op` (30_encoding.md R72). -/
theorem op_cases (op : BitVec 3) :
    op = 0#3 ∨ op = 1#3 ∨ op = 2#3 ∨ op = 3#3 ∨ op = 4#3 ∨ op = 5#3 ∨ op = 6#3 ∨ op = 7#3 := by
  revert op; decide

/-- The one command with the operation code of RESET (30_encoding.md R72). -/
theorem Instr.eq_reset_of_op {i : Instr} (h : i.op = 1#3) : ∃ arg, i = .reset arg := by
  cases i with
  | reset arg => exact ⟨arg, rfl⟩
  | reserved67 low _ =>
    exfalso
    have : ∀ low : BitVec 1, (3#2 ++ low : BitVec 3) ≠ 1#3 := by decide
    exact this low h
  | _ => simp [Instr.op] at h

/-- The seven arms of the decoder on a word put together from its fields (30_encoding.md R88). -/
theorem decode_mk (fmt : BitVec 4) (op : BitVec 3) (arg : Word) :
    decode fmt (Command.mk op arg) =
      if op = 0#3 then .ok (.nop arg)
      else if op = 1#3 then .ok (.reset arg)
      else if op = 2#3 then .ok (decodeConfig arg)
      else if op = 3#3 then decodePush fmt arg
      else if op = 4#3 then .ok (decodeRead arg)
      else if op = 5#3 then .ok (.reserved5 arg)
      else .ok (.reserved67 (BitVec.extractLsb' 0 1 op) arg) := by
  simp only [decode, Command.op_mk, Command.arg_mk]

/-- A PUSH word under a format's code is that format's PUSH (30_encoding.md R83). -/
@[simp] theorem decodePush_code (f : Format) (w : Word) :
    decodePush f.code w =
      .ok (match f with | .direct => .pushDirect w | .bfp95 => .pushBfp95 w | .bfp126 => .pushBfp126 w) := by
  cases f <;> rfl

/-- Every word decodes under a format's code (30_encoding.md R88). -/
theorem decode_ok (f : Format) (cmd : Command) : ∃ i, decode f.code cmd = .ok i := by
  rw [← Command.mk_op_arg cmd, decode_mk]
  generalize Command.op cmd = op
  rcases op_cases op with rfl | rfl | rfl | rfl | rfl | rfl | rfl | rfl <;> simp

end Sys2Proof
end

