-- ==== Sys2Proof/Laws/Format.lean ====
section
/-! SUPPORT. The fields of a block-floating-point word as numbers and their ranges (42_bfp.md R130), the halves of a DIRECT word, and
the conversion at 0. -/

namespace Sys2Proof.Machine

theorem bfpFields_exp (m e : Nat) (w : Word) : (bfpFields m e w).exp = w.toNat % 2 ^ e := by
  simp [bfpFields, BitVec.extractLsb'_toNat]

theorem bfpFields_imMag (m e : Nat) (w : Word) : (bfpFields m e w).imMag = w.toNat / 2 ^ e % 2 ^ (m - 1) := by
  simp [bfpFields, BitVec.extractLsb'_toNat, Nat.shiftRight_eq_div_pow]

theorem bfpFields_reMag (m e : Nat) (w : Word) : (bfpFields m e w).reMag = w.toNat / 2 ^ (e + m) % 2 ^ (m - 1) := by
  simp [bfpFields, BitVec.extractLsb'_toNat, Nat.shiftRight_eq_div_pow]

theorem bfpFields_imS (m e : Nat) (w : Word) : (bfpFields m e w).imS = w.getLsbD (e + m - 1) := rfl

theorem bfpFields_reS (m e : Nat) (w : Word) : (bfpFields m e w).reS = w.getLsbD (e + 2 * m - 1) := rfl

/-- The fields of every word fit their widths (42_bfp.md R130). -/
theorem bfpFields_fits (m e : Nat) (w : Word) : (bfpFields m e w).fits m e := by
  refine ⟨?_, ?_, ?_⟩
  · rw [bfpFields_exp]; exact Nat.mod_lt _ (Nat.two_pow_pos e)
  · rw [bfpFields_imMag]; exact Nat.mod_lt _ (Nat.two_pow_pos _)
  · rw [bfpFields_reMag]; exact Nat.mod_lt _ (Nat.two_pow_pos _)

/-- A signed mantissa has its magnitude (42_bfp.md R131). -/
theorem signedMantissa_natAbs (sign : Bool) (mag : Nat) : (signedMantissa sign mag).natAbs = mag := by
  cases sign <;> simp [signedMantissa]

/-- The conversion of 0 is +0.0 (30_encoding.md R84). -/
@[simp] theorem f32_zero : f32 0 = 0#32 := by simp [f32]

end Sys2Proof.Machine
end

