-- ==== Sys2Proof/Laws/State.lean ====
section
/-! SUPPORT. One lemma per field per update of the architectural state and of the machine, each true by the definition of the update,
so that no later proof unfolds a record update. -/

namespace Sys2Proof.Machine

section
variable (r : Regs)

@[simp] theorem recordOutput_cfgCv (re im : Word) : (recordOutput re im r).cfgCv = r.cfgCv := rfl
@[simp] theorem recordOutput_cfgFmt (re im : Word) : (recordOutput re im r).cfgFmt = r.cfgFmt := rfl
@[simp] theorem recordOutput_cfgBw (re im : Word) : (recordOutput re im r).cfgBw = r.cfgBw := rfl
@[simp] theorem recordOutput_nsub (re im : Word) : (recordOutput re im r).nsub = r.nsub := rfl
@[simp] theorem recordOutput_scIdx (re im : Word) : (recordOutput re im r).scIdx = r.scIdx := rfl
@[simp] theorem recordOutput_recIdx (re im : Word) : (recordOutput re im r).recIdx = r.recIdx := rfl
@[simp] theorem recordOutput_outValid (re im : Word) : (recordOutput re im r).outValid = true := rfl
@[simp] theorem recordOutput_outRe (re im : Word) : (recordOutput re im r).outRe = re := rfl
@[simp] theorem recordOutput_outIm (re im : Word) : (recordOutput re im r).outIm = im := rfl
@[simp] theorem recordOutput_outSc (re im : Word) : (recordOutput re im r).outSc = r.scIdx := rfl
@[simp] theorem recordOutput_outRec (re im : Word) : (recordOutput re im r).outRec = r.recIdx := rfl
@[simp] theorem recordOutput_err (re im : Word) : (recordOutput re im r).err = r.err := rfl
@[simp] theorem recordOutput_errOp (re im : Word) : (recordOutput re im r).errOp = r.errOp := rfl
@[simp] theorem recordOutput_errArg (re im : Word) : (recordOutput re im r).errArg = r.errArg := rfl

@[simp] theorem beginPass_cfgCv (fmt : BitVec 4) (bw : BitVec 8) (n : BitVec 16) : (beginPass fmt bw n r).cfgCv = true := rfl
@[simp] theorem beginPass_cfgFmt (fmt : BitVec 4) (bw : BitVec 8) (n : BitVec 16) : (beginPass fmt bw n r).cfgFmt = fmt := rfl
@[simp] theorem beginPass_cfgBw (fmt : BitVec 4) (bw : BitVec 8) (n : BitVec 16) : (beginPass fmt bw n r).cfgBw = bw := rfl
@[simp] theorem beginPass_nsub (fmt : BitVec 4) (bw : BitVec 8) (n : BitVec 16) : (beginPass fmt bw n r).nsub = n := rfl
@[simp] theorem beginPass_scIdx (fmt : BitVec 4) (bw : BitVec 8) (n : BitVec 16) : (beginPass fmt bw n r).scIdx = 0#16 := rfl
@[simp] theorem beginPass_recIdx (fmt : BitVec 4) (bw : BitVec 8) (n : BitVec 16) : (beginPass fmt bw n r).recIdx = 0#32 := rfl
@[simp] theorem beginPass_outValid (fmt : BitVec 4) (bw : BitVec 8) (n : BitVec 16) : (beginPass fmt bw n r).outValid = false := rfl
@[simp] theorem beginPass_outRe (fmt : BitVec 4) (bw : BitVec 8) (n : BitVec 16) : (beginPass fmt bw n r).outRe = r.outRe := rfl
@[simp] theorem beginPass_outIm (fmt : BitVec 4) (bw : BitVec 8) (n : BitVec 16) : (beginPass fmt bw n r).outIm = r.outIm := rfl
@[simp] theorem beginPass_outSc (fmt : BitVec 4) (bw : BitVec 8) (n : BitVec 16) : (beginPass fmt bw n r).outSc = r.outSc := rfl
@[simp] theorem beginPass_outRec (fmt : BitVec 4) (bw : BitVec 8) (n : BitVec 16) : (beginPass fmt bw n r).outRec = r.outRec := rfl
@[simp] theorem beginPass_err (fmt : BitVec 4) (bw : BitVec 8) (n : BitVec 16) : (beginPass fmt bw n r).err = r.err := rfl
@[simp] theorem beginPass_errOp (fmt : BitVec 4) (bw : BitVec 8) (n : BitVec 16) : (beginPass fmt bw n r).errOp = r.errOp := rfl
@[simp] theorem beginPass_errArg (fmt : BitVec 4) (bw : BitVec 8) (n : BitVec 16) : (beginPass fmt bw n r).errArg = r.errArg := rfl

@[simp] theorem raiseError_cfgCv (code : ErrorCode) (op : BitVec 3) (arg : Word) : (raiseError code op arg r).1.cfgCv = r.cfgCv := rfl
@[simp] theorem raiseError_cfgFmt (code : ErrorCode) (op : BitVec 3) (arg : Word) : (raiseError code op arg r).1.cfgFmt = r.cfgFmt := rfl
@[simp] theorem raiseError_cfgBw (code : ErrorCode) (op : BitVec 3) (arg : Word) : (raiseError code op arg r).1.cfgBw = r.cfgBw := rfl
@[simp] theorem raiseError_nsub (code : ErrorCode) (op : BitVec 3) (arg : Word) : (raiseError code op arg r).1.nsub = r.nsub := rfl
@[simp] theorem raiseError_scIdx (code : ErrorCode) (op : BitVec 3) (arg : Word) : (raiseError code op arg r).1.scIdx = r.scIdx := rfl
@[simp] theorem raiseError_recIdx (code : ErrorCode) (op : BitVec 3) (arg : Word) : (raiseError code op arg r).1.recIdx = r.recIdx := rfl
@[simp] theorem raiseError_outValid (code : ErrorCode) (op : BitVec 3) (arg : Word) : (raiseError code op arg r).1.outValid = r.outValid := rfl
@[simp] theorem raiseError_outRe (code : ErrorCode) (op : BitVec 3) (arg : Word) : (raiseError code op arg r).1.outRe = r.outRe := rfl
@[simp] theorem raiseError_outIm (code : ErrorCode) (op : BitVec 3) (arg : Word) : (raiseError code op arg r).1.outIm = r.outIm := rfl
@[simp] theorem raiseError_outSc (code : ErrorCode) (op : BitVec 3) (arg : Word) : (raiseError code op arg r).1.outSc = r.outSc := rfl
@[simp] theorem raiseError_outRec (code : ErrorCode) (op : BitVec 3) (arg : Word) : (raiseError code op arg r).1.outRec = r.outRec := rfl
@[simp] theorem raiseError_err (code : ErrorCode) (op : BitVec 3) (arg : Word) : (raiseError code op arg r).1.err = code.code := rfl
@[simp] theorem raiseError_errOp (code : ErrorCode) (op : BitVec 3) (arg : Word) : (raiseError code op arg r).1.errOp = op := rfl
@[simp] theorem raiseError_errArg (code : ErrorCode) (op : BitVec 3) (arg : Word) : (raiseError code op arg r).1.errArg = arg := rfl
@[simp] theorem raiseError_response (code : ErrorCode) (op : BitVec 3) (arg : Word) : (raiseError code op arg r).2 = Response.error code := rfl

@[simp] theorem advance_cfgCv : (advance r).cfgCv = r.cfgCv := by
  unfold advance; split <;> rfl
@[simp] theorem advance_cfgFmt : (advance r).cfgFmt = r.cfgFmt := by
  unfold advance; split <;> rfl
@[simp] theorem advance_cfgBw : (advance r).cfgBw = r.cfgBw := by
  unfold advance; split <;> rfl
@[simp] theorem advance_nsub : (advance r).nsub = r.nsub := by
  unfold advance; split <;> rfl
@[simp] theorem advance_outValid : (advance r).outValid = r.outValid := by
  unfold advance; split <;> rfl
@[simp] theorem advance_outRe : (advance r).outRe = r.outRe := by
  unfold advance; split <;> rfl
@[simp] theorem advance_outIm : (advance r).outIm = r.outIm := by
  unfold advance; split <;> rfl
@[simp] theorem advance_outSc : (advance r).outSc = r.outSc := by
  unfold advance; split <;> rfl
@[simp] theorem advance_outRec : (advance r).outRec = r.outRec := by
  unfold advance; split <;> rfl
@[simp] theorem advance_err : (advance r).err = r.err := by
  unfold advance; split <;> rfl
@[simp] theorem advance_errOp : (advance r).errOp = r.errOp := by
  unfold advance; split <;> rfl
@[simp] theorem advance_errArg : (advance r).errArg = r.errArg := by
  unfold advance; split <;> rfl

/-- `Advance` at the last subcarrier of a record (40_control.md R107). -/
theorem advance_of_last {r : Regs} (h : r.scIdx.toNat + 1 = r.nsub.toNat) :
    advance r = { r with scIdx := 0#16, recIdx := r.recIdx + 1#32 } := if_pos h

/-- `Advance` inside a record (40_control.md R107). -/
theorem advance_of_inside {r : Regs} (h : r.scIdx.toNat + 1 ≠ r.nsub.toNat) :
    advance r = { r with scIdx := r.scIdx + 1#16 } := if_neg h

theorem advance_scIdx : (advance r).scIdx = if r.scIdx.toNat + 1 = r.nsub.toNat then 0#16 else r.scIdx + 1#16 := by
  unfold advance; split <;> rfl

theorem advance_recIdx : (advance r).recIdx = if r.scIdx.toNat + 1 = r.nsub.toNat then r.recIdx + 1#32 else r.recIdx := by
  unfold advance; split <;> rfl

@[simp] theorem leaveError_eq : leaveError r = Regs.reset := rfl
@[simp] theorem Regs.reset_cfgCv : Regs.reset.cfgCv = false := rfl
@[simp] theorem Regs.reset_cfgFmt : Regs.reset.cfgFmt = 0#4 := rfl
@[simp] theorem Regs.reset_cfgBw : Regs.reset.cfgBw = 0#8 := rfl
@[simp] theorem Regs.reset_nsub : Regs.reset.nsub = 0#16 := rfl
@[simp] theorem Regs.reset_scIdx : Regs.reset.scIdx = 0#16 := rfl
@[simp] theorem Regs.reset_recIdx : Regs.reset.recIdx = 0#32 := rfl
@[simp] theorem Regs.reset_outValid : Regs.reset.outValid = false := rfl
@[simp] theorem Regs.reset_outRe : Regs.reset.outRe = 0#32 := rfl
@[simp] theorem Regs.reset_outIm : Regs.reset.outIm = 0#32 := rfl
@[simp] theorem Regs.reset_outSc : Regs.reset.outSc = 0#16 := rfl
@[simp] theorem Regs.reset_outRec : Regs.reset.outRec = 0#32 := rfl
@[simp] theorem Regs.reset_err : Regs.reset.err = 0#8 := rfl
@[simp] theorem Regs.reset_errOp : Regs.reset.errOp = 0#3 := rfl
@[simp] theorem Regs.reset_errArg : Regs.reset.errArg = 0#32 := rfl

end

section
variable (s : State)

@[simp] theorem resetInput_regs : (resetInput s).regs = Regs.reset := rfl
@[simp] theorem resetInput_cmdIn : (resetInput s).cmdIn = s.cmdIn := rfl
@[simp] theorem resetInput_rspOut : (resetInput s).rspOut = s.rspOut := rfl
@[simp] theorem offerFirst_regs (cmd : Command) : (offerFirst cmd s).regs = s.regs := rfl
@[simp] theorem offerFirst_cmdIn (cmd : Command) : (offerFirst cmd s).cmdIn = .cmd cmd :: s.cmdIn := rfl
@[simp] theorem offerFirst_rspOut (cmd : Command) : (offerFirst cmd s).rspOut = s.rspOut := rfl
@[simp] theorem State.reset_regs : State.reset.regs = Regs.reset := rfl
@[simp] theorem State.reset_cmdIn : State.reset.cmdIn = [] := rfl
@[simp] theorem State.reset_rspOut : State.reset.rspOut = [] := rfl

/-- Offering a table word changes the command stream alone. -/
theorem State.withFetchWord_eq (nbits w : Nat) :
    s.withFetchWord nbits w = { s with cmdIn := .cmd (BitVec.ofNat 35 (w % 2 ^ nbits)) :: s.cmdIn } := rfl

end

end Sys2Proof.Machine
end

