-- ==== Sys2Proof/Laws/Ops.lean ====
section
/-! SUPPORT. For each shared operation, one lemma that says everything it can do; then every command as one function from the
architectural state to the next one and a response. -/

namespace Sys2Proof.Machine

/-- Whatever a command does, it is answered: a next state with one more response. -/
theorem answer_eq (run : Regs → Regs × Response) (s : State) :
    answer run s = .next { s with regs := (run s.regs).1, rspOut := s.rspOut ++ [(run s.regs).2] } := rfl

@[simp] theorem unlessError_of_error (run : Regs → Regs × Response) {r : Regs} (h : r.err ≠ 0#8) :
    unlessError run r = (r, Response.ignored) := by
  simp [unlessError, h]

@[simp] theorem unlessError_of_noError (run : Regs → Regs × Response) {r : Regs} (h : r.err = 0#8) :
    unlessError run r = run r := by
  simp [unlessError, h]

/-- `unlessError` either ignores, in ERROR state, or runs. -/
theorem unlessError_cases (run : Regs → Regs × Response) (r : Regs) :
    (r.err ≠ 0#8 ∧ unlessError run r = (r, Response.ignored)) ∨ (r.err = 0#8 ∧ unlessError run r = run r) := by
  by_cases h : r.err = 0#8
  · exact .inr ⟨h, unlessError_of_noError run h⟩
  · exact .inl ⟨h, unlessError_of_error run h⟩

/-- `push` either raises ERR_NOCFG or gives an output (40_control.md R106). -/
theorem push_cases (o : Word × Word) (w : Word) (r : Regs) :
    (r.cfgCv = false ∧ push o w r = raiseError .noCfg 3#3 w r) ∨
    (r.cfgCv = true ∧ push o w r = (advance (recordOutput o.1 o.2 r), Response.sample o.1 o.2 r.recIdx r.scIdx)) := by
  unfold push
  cases h : r.cfgCv <;> simp

/-- A PUSH outside the ERROR state in a configured block, as a machine state (40_control.md R106, R107). -/
theorem answer_push (o : Word × Word) (w : Word) {s : State} (he : s.regs.err = 0#8) (hc : s.regs.cfgCv = true) :
    answer (unlessError (push o w)) s = .next (s.afterPush o.1 o.2) := by
  rw [answer_eq]
  simp only [unlessError_of_noError _ he, push, hc, State.afterPush, Response.sample, advance, recordOutput]
  simp only [Bool.true_eq_false, if_false, Host.Outcome.next.injEq, State.mk.injEq, and_true]
  split <;> rfl

/-- `configure` raises one of four errors, in their order, or begins a pass (40_control.md R103, 60_exceptions.md R164). -/
theorem configure_cases (rsvHi : BitVec 16) (bw : BitVec 8) (rsvLo fmt : BitVec 4) (r : Regs) :
    ((rsvHi ≠ 0#16 ∨ rsvLo ≠ 0#4) ∧ configure rsvHi bw rsvLo fmt r = raiseError .cmd 2#3 (configArg rsvHi bw rsvLo fmt) r) ∨
    ((rsvHi = 0#16 ∧ rsvLo = 0#4) ∧ r.scIdx ≠ 0#16 ∧
      configure rsvHi bw rsvLo fmt r = raiseError .partialRecord 2#3 (configArg rsvHi bw rsvLo fmt) r) ∨
    ((rsvHi = 0#16 ∧ rsvLo = 0#4) ∧ r.scIdx = 0#16 ∧ Format.ofCode fmt = none ∧
      configure rsvHi bw rsvLo fmt r = raiseError .device 2#3 (configArg rsvHi bw rsvLo fmt) r) ∨
    ((rsvHi = 0#16 ∧ rsvLo = 0#4) ∧ r.scIdx = 0#16 ∧ (∃ f, Format.ofCode fmt = some f) ∧ nsubOf bw = none ∧
      configure rsvHi bw rsvLo fmt r = raiseError .bw 2#3 (configArg rsvHi bw rsvLo fmt) r) ∨
    ((rsvHi = 0#16 ∧ rsvLo = 0#4) ∧ r.scIdx = 0#16 ∧ (∃ f, Format.ofCode fmt = some f) ∧
      ∃ n, nsubOf bw = some n ∧ configure rsvHi bw rsvLo fmt r = (beginPass fmt bw n r, Response.nothing)) := by
  unfold configure
  by_cases h1 : rsvHi ≠ 0#16 ∨ rsvLo ≠ 0#4
  · exact .inl ⟨h1, if_pos h1⟩
  · have h1' : rsvHi = 0#16 ∧ rsvLo = 0#4 := by simpa using h1
    by_cases h2 : r.scIdx ≠ 0#16
    · exact .inr (.inl ⟨h1', h2, by rw [if_neg h1, if_pos h2]⟩)
    · have h2' : r.scIdx = 0#16 := by simpa using h2
      rw [if_neg h1, if_neg h2]
      cases hf : Format.ofCode fmt with
      | none => exact .inr (.inr (.inl ⟨h1', h2', rfl, rfl⟩))
      | some f =>
        cases hn : nsubOf bw with
        | none => exact .inr (.inr (.inr (.inl ⟨h1', h2', ⟨f, rfl⟩, rfl, rfl⟩)))
        | some n => exact .inr (.inr (.inr (.inr ⟨h1', h2', ⟨f, rfl⟩, n, rfl, rfl⟩)))

/-- The register numbers that have a view (10_state.md R35). -/
theorem regRead_isSome (r : Regs) (n : BitVec 8) : (regRead r n).isSome = true ↔ n.toNat ≤ 0x0A := by
  have key : ∀ m : BitVec 8,
      (m = 0 ∨ m = 1 ∨ m = 2 ∨ m = 3 ∨ m = 4 ∨ m = 5 ∨ m = 6 ∨ m = 7 ∨ m = 8 ∨ m = 9 ∨ m = 10) ↔ m.toNat ≤ 0x0A := by decide
  rw [← key n]
  unfold regRead
  repeat' split
  all_goals simp_all

/-- A number from 0x0B up has no view (10_state.md R35). -/
theorem regRead_none {r : Regs} {n : BitVec 8} (h : 0x0A < n.toNat) : regRead r n = none := by
  have := regRead_isSome r n
  cases hr : regRead r n with
  | none => rfl
  | some v => simp [hr] at this; omega

/-- A READ answers its value in any state; an illegal one is ignored in ERROR state and raises ERR_CMD outside it
(40_control.md R105, 60_exceptions.md R165). -/
theorem readRegister_cases (rsv : BitVec 24) (n : BitVec 8) (r : Regs) :
    (∃ v, rsv = 0#24 ∧ n.toNat ≤ 0x0A ∧ regRead r n = some v ∧ readRegister rsv n r = (r, Response.data v)) ∨
    ((rsv ≠ 0#24 ∨ 0x0A < n.toNat) ∧ r.err ≠ 0#8 ∧ readRegister rsv n r = (r, Response.ignored)) ∨
    ((rsv ≠ 0#24 ∨ 0x0A < n.toNat) ∧ r.err = 0#8 ∧ readRegister rsv n r = raiseError .cmd 4#3 (readArg rsv n) r) := by
  have hn := regRead_isSome r n
  by_cases h1 : rsv = 0#24
  · cases hv : regRead r n with
    | some v => exact .inl ⟨v, h1, hn.mp (by simp [hv]), rfl, by simp [readRegister, readValue, h1, hv]⟩
    | none =>
      have h2 : 0x0A < n.toNat := by
        by_contra hc
        have := hn.mpr (by omega)
        simp [hv] at this
      by_cases he : r.err = 0#8
      · exact .inr (.inr ⟨.inr h2, he, by simp [readRegister, readValue, h1, hv, he]⟩)
      · exact .inr (.inl ⟨.inr h2, he, by simp [readRegister, readValue, h1, hv, he]⟩)
  · by_cases he : r.err = 0#8
    · exact .inr (.inr ⟨.inl h1, he, by simp [readRegister, readValue, h1, he]⟩)
    · exact .inr (.inl ⟨.inl h1, he, by simp [readRegister, readValue, h1, he]⟩)

/-- What a command does to the architectural state, with its response: `Step` of 00_scope.md R12 after decoding. -/
def runOf : Instr → Regs → Regs × Response
  | .nop _, r => (r, Response.nothing)
  | .reset _, _ => (Regs.reset, Response.nothing)
  | .config rsvHi bw rsvLo fmt, r => unlessError (configure rsvHi bw rsvLo fmt) r
  | .pushDirect w, r => unlessError (push (outputsOf .direct w) w) r
  | .pushBfp95 w, r => unlessError (push (outputsOf .bfp95 w) w) r
  | .pushBfp126 w, r => unlessError (push (outputsOf .bfp126 w) w) r
  | .read rsv n, r => readRegister rsv n r
  | .reserved5 arg, r => unlessError (raiseError .cmd 5#3 arg) r
  | .reserved67 low arg, r => unlessError (raiseError .cmd (3#2 ++ low) arg) r

/-- Every command is answered, with what `runOf` says. -/
theorem exec_eq_answer (i : Instr) (s : State) : exec i s = answer (runOf i) s := by
  cases i <;> rfl

/-- What a next state of a command is. -/
theorem exec_next {i : Instr} {s t : State} (h : exec i s = .next t) :
    t = { s with regs := (runOf i s.regs).1, rspOut := s.rspOut ++ [(runOf i s.regs).2] } := by
  rw [exec_eq_answer, answer_eq] at h
  exact (Host.Outcome.next.inj h).symm

/-- What one step is, by what stands first in the command stream. -/
theorem step_nil {s : State} (h : s.cmdIn = []) : step s = .next s := by
  simp [step, stepStream, h]

theorem step_rst {s : State} {rest : List HostEvent} (h : s.cmdIn = .rst :: rest) :
    step s = .next { regs := Regs.reset, cmdIn := rest, rspOut := s.rspOut } := by
  simp [step, stepStream, h, resetInput]

theorem step_cmd {s : State} {w : Command} {rest : List HostEvent} (h : s.cmdIn = .cmd w :: rest) :
    step s = runCommand w { s with cmdIn := rest } := by
  simp [step, stepStream, h]

/-- A step whose command decodes runs it. -/
theorem step_decoded {s : State} {w : Command} {rest : List HostEvent} {i : Instr} (h : s.cmdIn = .cmd w :: rest)
    (hd : decode s.regs.cfgFmt w = .ok i) :
    step s = .next { regs := (runOf i s.regs).1, cmdIn := rest, rspOut := s.rspOut ++ [(runOf i s.regs).2] } := by
  rw [step_cmd h]
  simp only [runCommand, hd, exec_eq_answer, answer_eq]

/-- All that a step can do when it answers a next state. -/
theorem step_cases {s t : State} (h : step s = .next t) :
    (s.cmdIn = [] ∧ t = s) ∨
    (∃ rest, s.cmdIn = .rst :: rest ∧ t = { regs := Regs.reset, cmdIn := rest, rspOut := s.rspOut }) ∨
    (∃ w rest i, s.cmdIn = .cmd w :: rest ∧ decode s.regs.cfgFmt w = .ok i ∧
      t = { regs := (runOf i s.regs).1, cmdIn := rest, rspOut := s.rspOut ++ [(runOf i s.regs).2] }) := by
  cases hc : s.cmdIn with
  | nil => rw [step_nil hc] at h; exact .inl ⟨rfl, (Host.Outcome.next.inj h).symm⟩
  | cons e rest =>
    cases e with
    | rst => rw [step_rst hc] at h; exact .inr (.inl ⟨rest, rfl, (Host.Outcome.next.inj h).symm⟩)
    | cmd w =>
      cases hd : decode s.regs.cfgFmt w with
      | error e =>
        cases e
        rw [step_cmd hc] at h
        simp [runCommand, hd] at h
      | ok i =>
        rw [step_decoded hc hd] at h
        exact .inr (.inr ⟨w, rest, i, rfl, hd, (Host.Outcome.next.inj h).symm⟩)

end Sys2Proof.Machine
end

