-- ==== Sys2Proof/Laws/PerInstr.lean ====
section
/-! SUPPORT. The statements made command by command. -/

namespace Sys2Proof.Laws

/-- The word of a command has the command's `op` in bits 34:32 and its `arg` in bits 31:0 (30_encoding.md R71). -/
def EncodedFields.Statement (i : Instr) : Prop :=
  BitVec.extractLsb' 32 3 (encode i) = i.op ∧ BitVec.extractLsb' 0 32 (encode i) = i.arg

theorem EncodedFields.nop (arg : Word) : EncodedFields.Statement (.nop arg) := ⟨encode_op _, encode_arg _⟩

theorem EncodedFields.reset (arg : Word) : EncodedFields.Statement (.reset arg) := ⟨encode_op _, encode_arg _⟩

theorem EncodedFields.config (rsvHi : BitVec 16) (bw : BitVec 8) (rsvLo fmt : BitVec 4) :
    EncodedFields.Statement (.config rsvHi bw rsvLo fmt) := ⟨encode_op _, encode_arg _⟩

theorem EncodedFields.pushDirect (w : Word) : EncodedFields.Statement (.pushDirect w) := ⟨encode_op _, encode_arg _⟩

theorem EncodedFields.pushBfp95 (w : Word) : EncodedFields.Statement (.pushBfp95 w) := ⟨encode_op _, encode_arg _⟩

theorem EncodedFields.pushBfp126 (w : Word) : EncodedFields.Statement (.pushBfp126 w) := ⟨encode_op _, encode_arg _⟩

theorem EncodedFields.read (rsv : BitVec 24) (n : BitVec 8) : EncodedFields.Statement (.read rsv n) :=
  ⟨encode_op _, encode_arg _⟩

theorem EncodedFields.reserved5 (arg : Word) : EncodedFields.Statement (.reserved5 arg) := ⟨encode_op _, encode_arg _⟩

theorem EncodedFields.reserved67 (low : BitVec 1) (arg : Word) : EncodedFields.Statement (.reserved67 low arg) :=
  ⟨encode_op _, encode_arg _⟩

end Sys2Proof.Laws
end

