-- ==== Sys2Proof/Laws/Port.lean ====
section
/-! SUPPORT. What each part of a rising edge of the port does to the wrapped machine. -/

namespace Sys2Proof.Machine

/-- Taking a response touches the offered responses alone. -/
theorem Port.take_core (p : Port) (i : PinsIn) :
    (p.take i).core.regs = p.core.regs ∧ (p.take i).core.cmdIn = p.core.cmdIn ∧ (p.take i).wait = p.wait ∧
      (p.take i).stall = p.stall ∧ (p.take i).core.rspOut = (if p.taken i then p.core.rspOut.drop 1 else p.core.rspOut) := by
  unfold Port.take; split <;> simp [*]

/-- Accepting a command touches the waiting commands and the stall alone. -/
theorem Port.accept_core (p : Port) (i : PinsIn) :
    (p.accept i).core.regs = p.core.regs ∧ (p.accept i).core.rspOut = p.core.rspOut ∧ (p.accept i).wait = p.wait ∧
      (p.accept i).core.cmdIn = p.core.cmdIn ++ (if p.accepts i then [.cmd i.command] else []) := by
  unfold Port.accept; split <;> simp [*]

/-- Nothing is answered while no command waits or a response is still offered. -/
theorem Port.work_hold {p : Port} (h : p.core.cmdIn = [] ∨ p.core.rspOut ≠ []) : p.work = p := by
  unfold Port.work
  rw [if_pos]
  rcases h with h | h
  · simp [h]
  · cases hr : p.core.rspOut with
    | nil => exact absurd hr h
    | cons => simp

/-- While the latency runs down nothing else happens. -/
theorem Port.work_wait {p : Port} (hc : p.core.cmdIn ≠ []) (hr : p.core.rspOut = []) (hw : p.wait ≠ 0) :
    p.work = { p with wait := p.wait - 1 } := by
  unfold Port.work
  rw [if_neg (by cases h : p.core.cmdIn with | nil => exact absurd h hc | cons => simp [hr]), if_pos hw]

/-- Once the latency has run down the first waiting command is answered, as the machine answers it. -/
theorem Port.work_answer {p : Port} {w : Command} {rest : List HostEvent} {i : Instr} (hc : p.core.cmdIn = .cmd w :: rest)
    (hr : p.core.rspOut = []) (hw : p.wait = 0) (hd : decode p.core.regs.cfgFmt w = .ok i) :
    p.work.core = ⟨(runOf i p.core.regs).1, rest, [(runOf i p.core.regs).2]⟩ := by
  unfold Port.work
  rw [if_neg (by simp [hc, hr]), if_neg (by simp [hw]), step_decoded hc hd]
  simp [hr]

/-- An offered response is the one shown. -/
theorem Port.shown_offered {p : Port} {rsp : Response} {rest : List Response} (h : p.core.rspOut = rsp :: rest) :
    p.shown false = rsp := by
  simp [Port.shown, Port.rspValid, h]

/-- Under `rst` no response is shown. -/
@[simp] theorem Port.shown_rst (p : Port) : p.shown true = Response.nothing := rfl

/-- An edge under `rst` leaves the reset state. -/
theorem Port.clear_core (p : Port) : p.clear.core = State.reset := rfl

end Sys2Proof.Machine
end

