-- ==== Sys2Proof/Laws/Run.lean ====
section
/-! SUPPORT. Runs: one step more, and what the response stream and the rest of the command stream have to do with a step. -/

namespace Sys2Proof.Machine

/-- A run of no step. -/
@[simp] theorem runsTo_zero {s t : State} : runsTo 0 s t ↔ s = t :=
  ⟨fun h => Host.Outcome.next.inj h, fun h => h ▸ rfl⟩

/-- What a run of one step more is, for any machine of the host's shape. -/
theorem core_run_succ (M : Host.Core) (k : Nat) (s : M.State) :
    M.run (k + 1) s =
      match M.step s with
      | .next s' => M.run k s'
      | .fault r => .fault r
      | .refused r => .refused r := rfl

/-- A run of one step more begins with a step that answers a next state. -/
theorem runsTo_succ {k : Nat} {s t : State} : runsTo (k + 1) s t ↔ ∃ u, step s = .next u ∧ runsTo k u t := by
  have h := core_run_succ Sys2Proof.core k s
  constructor
  · intro hr
    have hr' : Sys2Proof.core.run (k + 1) s = .next t := hr
    rw [h] at hr'
    cases hs : Sys2Proof.core.step s with
    | next u => rw [hs] at hr'; exact ⟨u, hs, hr'⟩
    | fault e => rw [hs] at hr'; cases hr'
    | refused e => rw [hs] at hr'; cases hr'
  · rintro ⟨u, hu, ht⟩
    have hs : Sys2Proof.core.step s = .next u := hu
    rw [hs] at h
    exact h.trans ht

/-- Runs join. -/
theorem runsTo_add {j k : Nat} {s t : State} : runsTo (j + k) s t ↔ ∃ u, runsTo j s u ∧ runsTo k u t := by
  induction j generalizing s with
  | zero => simp
  | succ j ih =>
    rw [show j + 1 + k = (j + k) + 1 by omega]
    simp only [runsTo_succ, ih]
    constructor
    · rintro ⟨v, hv, u, hu, ht⟩; exact ⟨u, ⟨v, hv, hu⟩, ht⟩
    · rintro ⟨u, ⟨v, hv, hu⟩, ht⟩; exact ⟨v, hv, u, hu, ht⟩

/-- Where a run ends is one state. -/
theorem runsTo_unique {k : Nat} {s t u : State} (h : runsTo k s t) (h' : runsTo k s u) : t = u := by
  unfold runsTo at h h'
  rw [h] at h'
  exact Host.Outcome.next.inj h'

/-- Events offered behind others do not touch the run of the others. -/
theorem runsTo_offered_more (evs extra : List HostEvent) (r : Regs) (out : List Response) (t : State) :
    runsTo evs.length ⟨r, evs ++ extra, out⟩ t ↔
    ∃ u, runsTo evs.length ⟨r, evs, out⟩ u ∧ u.cmdIn = [] ∧ t = { u with cmdIn := extra } := by
  induction evs generalizing r out with
  | nil =>
    simp only [List.length_nil, runsTo_zero, List.nil_append]
    constructor
    · rintro rfl; exact ⟨_, rfl, rfl, rfl⟩
    · rintro ⟨_, rfl, _, rfl⟩; rfl
  | cons e es ih =>
    simp only [List.length_cons, runsTo_succ, List.cons_append]
    cases e with
    | rst =>
      have a := step_rst (s := ⟨r, .rst :: (es ++ extra), out⟩) rfl
      have b := step_rst (s := ⟨r, .rst :: es, out⟩) rfl
      rw [a, b]
      simp only [Host.Outcome.next.injEq, exists_eq_left']
      exact ih _ _
    | cmd c =>
      cases hd : decode r.cfgFmt c with
      | ok i =>
        have a := step_decoded (s := ⟨r, .cmd c :: (es ++ extra), out⟩) rfl hd
        have b := step_decoded (s := ⟨r, .cmd c :: es, out⟩) rfl hd
        rw [a, b]
        simp only [Host.Outcome.next.injEq, exists_eq_left']
        exact ih _ _
      | error e =>
        cases e
        have a : ∀ l, step ⟨r, .cmd c :: l, out⟩ = .fault (.illegalFormat _) := fun l => by
          rw [step_cmd (s := ⟨r, .cmd c :: l, out⟩) rfl]; simp only [runCommand, hd]; rfl
        rw [a, a]; simp

/-- One event more in a history from reset: it happens to what the others left (20_memory.md R58). -/
theorem answersAll_snoc (evs : List HostEvent) (e : HostEvent) (t : State) :
    answersAll (evs ++ [e]) t ↔ ∃ u, answersAll evs u ∧ u.cmdIn = [] ∧ step { u with cmdIn := [e] } = .next t := by
  unfold answersAll
  rw [List.length_append, runsTo_add]
  constructor
  · rintro ⟨v, h1, h2⟩
    obtain ⟨u, hu, he, rfl⟩ := (runsTo_offered_more evs [e] _ _ v).mp h1
    obtain ⟨w, hw, ht⟩ := (runsTo_succ (k := 0)).mp h2
    rw [runsTo_zero] at ht
    exact ⟨u, hu, he, ht ▸ hw⟩
  · rintro ⟨u, hu, he, hs⟩
    exact ⟨_, (runsTo_offered_more evs [e] _ _ _).mpr ⟨u, hu, he, rfl⟩, (runsTo_succ (k := 0)).mpr ⟨t, hs, by simp⟩⟩

/-- One command more in a history from reset: it is decoded and run on what the others left. -/
theorem answersAll_snoc_cmd (evs : List HostEvent) (c : Command) (t : State) :
    answersAll (evs ++ [.cmd c]) t ↔ ∃ u i, answersAll evs u ∧ u.cmdIn = [] ∧ decode u.regs.cfgFmt c = .ok i ∧
      t = ⟨(runOf i u.regs).1, [], u.rspOut ++ [(runOf i u.regs).2]⟩ := by
  rw [answersAll_snoc]
  constructor
  · rintro ⟨u, hu, he, hs⟩
    rcases step_cases hs with ⟨h, _⟩ | ⟨_, h, _⟩ | ⟨x, rest, i, h, hd, rfl⟩
    · simp at h
    · simp at h
    · simp at h; obtain ⟨rfl, rfl⟩ := h
      exact ⟨u, i, hu, he, hd, rfl⟩
  · rintro ⟨u, i, hu, he, hd, rfl⟩
    exact ⟨u, hu, he, step_decoded (s := { u with cmdIn := [.cmd c] }) rfl hd⟩

/-- The reset input behind a history: the reset values, and no response. -/
theorem answersAll_snoc_rst (evs : List HostEvent) (t : State) :
    answersAll (evs ++ [.rst]) t ↔ ∃ u, answersAll evs u ∧ u.cmdIn = [] ∧ t = ⟨Regs.reset, [], u.rspOut⟩ := by
  rw [answersAll_snoc]
  constructor
  · rintro ⟨u, hu, he, hs⟩
    rw [step_rst (rest := []) rfl] at hs
    exact ⟨u, hu, he, (Host.Outcome.next.inj hs).symm⟩
  · rintro ⟨u, hu, he, rfl⟩
    exact ⟨u, hu, he, step_rst (s := { u with cmdIn := [.rst] }) rfl⟩

/-- The history of no event (10_state.md R37). -/
theorem answersAll_nil (t : State) : answersAll [] t ↔ t = State.reset := by
  unfold answersAll; simp [eq_comm]; rfl

@[simp] theorem commandCount_nil : commandCount [] = 0 := rfl

@[simp] theorem commandCount_cmd (c : Command) (evs : List HostEvent) : commandCount (.cmd c :: evs) = commandCount evs + 1 := by
  simp [commandCount, List.countP_cons, HostEvent.isCommand]

@[simp] theorem commandCount_rst (evs : List HostEvent) : commandCount (.rst :: evs) = commandCount evs := by
  simp [commandCount, HostEvent.isCommand]

@[simp] theorem commandCount_append (evs more : List HostEvent) :
    commandCount (evs ++ more) = commandCount evs + commandCount more := by
  simp [commandCount]

end Sys2Proof.Machine
end

