-- ==== Sys2Proof/Tests/Slice0.lean ====
section
/-! SUPPORT. Tests whose expected values are the spec's own (95_test_vectors.md, and the encodings of 30_encoding.md), the smoke
tests of WellFormed, and for each statement of Certificates/Slice0 with hypotheses a state and operands that meet them. -/

namespace Sys2Proof.Tests

open Sys2Proof Sys2Proof.Machine

/-- The next state of an outcome. -/
def nextOf : Host.Outcome State Fault Refusal → Option State
  | .next t => some t
  | .fault _ => none
  | .refused _ => none

/-- A configured block at a position (95_test_vectors.md 2.7, 2.11). -/
def configured (f : Format) (bw : BitVec 8) (n sc : BitVec 16) (record : Word) : Regs :=
  { Regs.reset with cfgCv := true, cfgFmt := f.code, cfgBw := bw, nsub := n, scIdx := sc, recIdx := record }

/-- READY20 of 95_test_vectors.md 2.7. -/
def ready20 : Regs := configured .direct 20#8 64#16 0#16 0#32

/-- The start state of 95_test_vectors.md 2.10. -/
def inError : Regs := { ready20 with err := 4#8, errOp := 3#3, errArg := 0x00001234#32 }

/-- The block with one command offered. -/
def offering (r : Regs) (w : Command) : State := ⟨r, [.cmd w], []⟩

/-- The block with nothing offered. -/
def idle (r : Regs) : State := ⟨r, [], []⟩

/-- What one step makes of one offered command. -/
def answered (r : Regs) (w : Command) : Option (Regs × List Response) :=
  (nextOf (step (offering r w))).map fun t => (t.regs, t.rspOut)

/-! WellFormed: an ill-formed term for each check -/

theorem test_wellFormed_refuses_push_of_another_format : Instr.wellFormed 0#4 (.pushBfp95 1#32) = false := by decide

theorem test_noReserved_refuses_reserved_bit : Instr.noReserved (.config 0#16 20#8 1#4 0#4) = false := by decide

theorem test_noReserved_refuses_register_0B : Instr.noReserved (.read 0#24 0x0B#8) = false := by decide

theorem test_supported_refuses_format_3 : Instr.supported (.config 0#16 20#8 0#4 3#4) = false := by decide

theorem test_supported_refuses_bandwidth_30 : Instr.supported (.config 0#16 30#8 0#4 0#4) = false := by decide

theorem test_writable_refuses_argument_of_nop : Instr.writable (.nop 1#32) = false := by decide

/-! Decode: one word per constructor, written from 30_encoding.md R71 to R77 -/

theorem test_decode_nop : decode 0#4 0b000_11011110101011011011111011101111#35 = .ok (.nop 0xDEADBEEF#32) := by rfl

theorem test_decode_reset : decode 0#4 0b001_00000000000000000000000000000001#35 = .ok (.reset 1#32) := by rfl

theorem test_decode_config :
    decode 0#4 0b010_0000000000000001_10100000_0100_0010#35 = .ok (.config 1#16 160#8 4#4 2#4) := by rfl

theorem test_decode_pushDirect : decode 0#4 0b011_1111111111001110_0000000001100100#35 = .ok (.pushDirect 0xFFCE0064#32) := by rfl

theorem test_decode_pushBfp95 :
    decode 1#4 0b011_000000000_1_00000011_0_00000101_00001#35 = .ok (.pushBfp95 0x0040C0A1#32) := by rfl

theorem test_decode_pushBfp126 :
    decode 2#4 0b011_00_1_00000000001_0_00000000001_000000#35 = .ok (.pushBfp126 0x20040040#32) := by rfl

theorem test_decode_read : decode 0#4 0b100_000000000000000000000001_00001010#35 = .ok (.read 1#24 0x0A#8) := by rfl

theorem test_decode_reserved5 : decode 0#4 0b101_00000000000000000000000000000010#35 = .ok (.reserved5 2#32) := by rfl

theorem test_decode_reserved67 :
    decode 0#4 0b110_00000000000000000000000000000000#35 = .ok (.reserved67 0#1 0#32) ∧
    decode 0#4 0b111_11111111111111111111111111111111#35 = .ok (.reserved67 1#1 0xFFFFFFFF#32) := ⟨rfl, rfl⟩

/-- `CONFIG BFP_12_6, 80` and `READ 0x0B` (40_control.md R103, R105), as table words. -/
theorem test_decodeTableWord :
    decodeTableWord 40 0x200005002 = some (.config 0#16 80#8 0#4 2#4) ∧
    decodeTableWord 40 0x40000000B = some (.read 0#24 0x0B#8) ∧ decodeTableWord 40 0xF00000000 = none := ⟨rfl, rfl, rfl⟩

/-! Formats: the tables of 95_test_vectors.md -/

/-- 95_test_vectors.md 2.1. -/
theorem test_f32_vectors :
    ([((0 : Int), 0x00000000#32), (1, 0x3F800000#32), (-1, 0xBF800000#32), (2, 0x40000000#32), (3, 0x40400000#32),
      (100, 0x42C80000#32), (-50, 0xC2480000#32), (1024, 0x44800000#32), (32767, 0x46FFFE00#32), (-32768, 0xC7000000#32),
      (1023 * 2 ^ 10, 0x497FC000#32), (255 * 2 ^ 41, 0x57FF0000#32), (-2047 * 2 ^ 73, 0xE97FE000#32)].all
      fun v => decide (f32 v.1 = v.2)) = true := by decide

/-- 95_test_vectors.md 2.2: V-D1, V-D3 to V-D7, V-D10. -/
theorem test_direct_vectors :
    ([(0x00000000#32, 0x00000000#32, 0x00000000#32), (0xFFCE0064#32, 0x42C80000#32, 0xC2480000#32),
      (0x0000FFFF#32, 0xBF800000#32, 0x00000000#32), (0xFFFF0000#32, 0x00000000#32, 0xBF800000#32),
      (0x80007FFF#32, 0x46FFFE00#32, 0xC7000000#32), (0x7FFF8000#32, 0xC7000000#32, 0x46FFFE00#32),
      (0x12345678#32, 0x46ACF000#32, 0x4591A000#32)].all
      fun v => decide (outputsOf .direct v.1 = v.2)) = true := by decide

/-- 95_test_vectors.md 2.3: V-B9-2, V-B9-5, V-B9-6, V-B9-8 to V-B9-13, V-B9-15; 2.5 and 2.6: V-U1. -/
theorem test_bfp95_vectors :
    ([(0x0000C0A0#32, 0x45400000#32, 0x45A00000#32), (0x0040C0A0#32, 0xC5400000#32, 0x45A00000#32),
      (0x0000E0A0#32, 0x45400000#32, 0xC5A00000#32), (0x00004000#32, 0x44800000#32, 0x00000000#32),
      (0x00000020#32, 0x00000000#32, 0x44800000#32), (0x00402007#32, 0x00000000#32, 0x00000000#32),
      (0x003FDFE0#32, 0x487F0000#32, 0x487F0000#32), (0x003FFFFF#32, 0x57FF0000#32, 0xD7FF0000#32),
      (0x0060081F#32, 0xD7800000#32, 0x57000000#32), (0x0000C0BF#32, 0x54C00000#32, 0x55200000#32),
      (0x12345678#32, 0x54510000#32, 0x54330000#32), (0xFF80C0A0#32, 0x45400000#32, 0x45A00000#32)].all
      fun v => decide (outputsOf .bfp95 v.1 = v.2)) = true := by decide

/-- 95_test_vectors.md 2.4: V-B12-2, V-B12-4, V-B12-6 to V-B12-9, V-B12-11; 2.5 and 2.6: V-U3. -/
theorem test_bfp126_vectors :
    ([(0x000C0140#32, 0x45400000#32, 0x45A00000#32), (0x20040040#32, 0xC4800000#32, 0x44800000#32),
      (0x100200D4#32, 0x53800000#32, 0xCF400000#32), (0x2000003F#32, 0x00000000#32, 0x00000000#32),
      (0x1FFDFFC0#32, 0x49FFE000#32, 0x49FFE000#32), (0x1FFFFFFF#32, 0x697FE000#32, 0xE97FE000#32),
      (0x0004007F#32, 0x64000000#32, 0x64000000#32), (0x12345678#32, 0x6591A000#32, 0x64AC8000#32),
      (0xC00C0140#32, 0x45400000#32, 0x45A00000#32)].all
      fun v => decide (outputsOf .bfp126 v.1 = v.2)) = true := by decide

/-- 95_test_vectors.md 2.3: under the signed reading V-B9-15 gives `(3·2^9, 5·2^9)`. -/
theorem test_bfp95_signed_exponent :
    bfpOutputs true 9 5 0x0000C0BF#32 = (f32 (3 * 2 ^ 9), f32 (5 * 2 ^ 9)) := by decide

/-- 95_test_vectors.md 2.2, byte view. -/
theorem test_payload_bytes :
    payloadWord .le 0x64#8 0x00#8 0xCE#8 0xFF#8 = 0xFFCE0064#32 ∧ payloadWord .be 0x64#8 0x00#8 0xCE#8 0xFF#8 = 0x6400CEFF#32 ∧
    directDecode 0x6400CEFF#32 = (-12545, 25600) := by decide

/-! Steps -/

/-- V-N1. -/
theorem test_nop : answered ready20 0x0DEADBEEF#35 = some (ready20, [⟨.none, 0#32, 0#32, 0#32, 0#32⟩]) := by decide

/-- V-E6. -/
theorem test_nop_in_error : answered inError 0x000000000#35 = some (inError, [⟨.none, 0#32, 0#32, 0#32, 0#32⟩]) := by decide

/-- V-N2. -/
theorem test_reset :
    answered { Regs.reset with err := 3#8, errOp := 2#3, errArg := 0x00001E00#32 } 0x1FFFFFFFF#35 =
      some (Regs.reset, [⟨.none, 0#32, 0#32, 0#32, 0#32⟩]) := by decide

/-- V-C13. -/
theorem test_config :
    (answered { configured .direct 20#8 64#16 0#16 7#32 with outValid := true, outRe := 0x3F800000#32 } 0x200001401#35).map
      (fun t => (t.1.cfg, t.1.recIdx, t.1.outRe, t.1.status, t.2)) =
      some (0x80001401#32, 0#32, 0x3F800000#32, 0x500#32, [⟨.none, 0#32, 0#32, 0#32, 0#32⟩]) := by decide

/-- V-C4 to V-C9 and V-C10 to V-C12: the code of each error. -/
theorem test_config_errors :
    [0x200001410#35, 0x200011400#35, 0x200001403#35, 0x20000140F#35, 0x200000000#35, 0x200001E00#35, 0x200000003#35].map
      (fun w => (answered Regs.reset w).map fun t => t.1.err) =
      [some 1#8, some 1#8, some 2#8, some 2#8, some 3#8, some 3#8, some 2#8] ∧
    [0x200001400#35, 0x200000003#35, 0x200011400#35].map
      (fun w => (answered (configured .direct 20#8 64#16 5#16 0#32) w).map fun t => t.1.err) =
      [some 5#8, some 5#8, some 1#8] := by decide

/-- V-D3 at the first position (40_control.md R106). -/
theorem test_pushDirect :
    (answered ready20 0x3FFCE0064#35).map (fun t => (t.1.scIdx, t.1.outValid, t.2)) =
      some (1#16, true, [⟨.sample, 0x42C80000#32, 0xC2480000#32, 0#32, 0#32⟩]) := by decide

/-- V-P3: the record index wraps. -/
theorem test_pushDirect_wraps :
    (answered (configured .direct 20#8 64#16 63#16 0xFFFFFFFF#32) 0x300010001#35).map
      (fun t => (t.1.scIdx, t.1.recIdx, t.1.outSc, t.1.outRec, t.2)) =
      some (0#16, 0#32, 63#16, 0xFFFFFFFF#32, [⟨.sample, 0x3F800000#32, 0x3F800000#32, 0xFFFFFFFF#32, 63#32⟩]) := by decide

/-- V-P5. -/
theorem test_pushBfp95 :
    (answered (configured .bfp95 80#8 256#16 100#16 2#32) 0x30000C0A0#35).map (fun t => (t.1.scIdx, t.1.recIdx, t.1.status, t.2)) =
      some (101#16, 2#32, 0x700#32, [⟨.sample, 0x45400000#32, 0x45A00000#32, 2#32, 100#32⟩]) := by decide

/-- V-P4. -/
theorem test_pushBfp126 :
    (answered (configured .bfp126 160#8 512#16 511#16 4#32) 0x3000C0140#35).map (fun t => (t.1.scIdx, t.1.recIdx, t.2)) =
      some (0#16, 5#32, [⟨.sample, 0x45400000#32, 0x45A00000#32, 4#32, 511#32⟩]) := by decide

/-- V-P1. -/
theorem test_push_before_config :
    answered Regs.reset 0x312345678#35 =
      some ({ Regs.reset with err := 4#8, errOp := 3#3, errArg := 0x12345678#32 }, [⟨.error, 4#32, 0#32, 0#32, 0#32⟩]) := by decide

/-- The end state of program P2 in 95_test_vectors.md. -/
def endOfP2 : Regs :=
  { configured .bfp126 80#8 256#16 3#16 0#32 with
    outValid := true, outRe := 0x697FE000#32, outIm := 0xE97FE000#32, outSc := 2#16 }

/-- V-R0 to V-R3 and V-R5 to V-R7. -/
theorem test_read :
    ([(0x400000000#35, 0x00000700#32), (0x400000001#35, 0x80005002#32), (0x400000002#35, 0x00000100#32),
      (0x400000003#35, 0x00000003#32), (0x400000005#35, 0x697FE000#32), (0x400000006#35, 0xE97FE000#32), (0x400000007#35, 2#32)].all
      fun v => decide (answered endOfP2 v.1 = some (endOfP2, [⟨.data, v.2, 0#32, 0#32, 0#32⟩]))) = true := by decide

/-- V-R11 and V-R12. -/
theorem test_read_errors :
    answered ready20 0x40000000B#35 =
      some ({ ready20 with err := 1#8, errOp := 4#3, errArg := 0x0000000B#32 }, [⟨.error, 1#32, 0#32, 0#32, 0#32⟩]) ∧
    (answered ready20 0x400000100#35).map (fun t => t.1.errArg) = some 0x00000100#32 := by decide

/-- V-N3. -/
theorem test_reserved5 :
    (answered ready20 0x500000000#35).map (fun t => (t.1.errOp, t.1.errArg, t.1.status)) = some (5#3, 0#32, 0x901#32) := by decide

/-- V-N4. -/
theorem test_reserved67 :
    (answered ready20 0x7FFFFFFFF#35).map (fun t => (t.1.err, t.1.errOp, t.1.errArg)) = some (1#8, 7#3, 0xFFFFFFFF#32) := by decide

/-- V-E1, V-E2, V-E4, V-E5. -/
theorem test_error_state_ignores :
    ([0x300000000#35, 0x200001400#35, 0x40000000B#35, 0x600000000#35].all
      fun w => decide (answered inError w = some (inError, [⟨.ignored, 0#32, 0#32, 0#32, 0#32⟩]))) = true := by decide

/-- V-E3. -/
theorem test_error_state_reads :
    answered inError 0x400000009#35 = some (inError, [⟨.data, 3#32, 0#32, 0#32, 0#32⟩]) := by decide

/-! Assembler: programs P1, P2 and P4 of 95_test_vectors.md -/

theorem test_assemble_lines :
    asmText "config BFP_12_6, 80 ; begin\n\nPUSHB126 1, 1, 0, 1, 0\nPUSHIQ 100, -50\n.cmd 0, 0xDEADBEEF\nREAD nsub".toList =
      some [0x200005002#35, 0x320040040#35, 0x3FFCE0064#35, 0x0DEADBEEF#35, 0x400000002#35] := by decide

theorem test_assemble_refuses : asmText "CONFIG 16, 80".toList = none ∧ asmText "READ 256".toList = none := by decide

theorem test_assemble_pushB95 : assemble (.pushB95 1 3 1 5 0) = some 0x30040E0A0#35 := by decide

/-! Witnesses: for each statement with hypotheses, states and operands that meet all of them, at the boundaries of its clauses -/

/-- A command stream of which one command is offered at a time, run to its end. -/
def ran (k : Nat) (s : State) : Option State := nextOf (Sys2Proof.core.run k s)

theorem witness_DecodeOfEncodeIsIdentity :
    Instr.wellFormed 15#4 (.nop 0xFFFFFFFF#32) = true ∧ Instr.wellFormed 15#4 (.config 0xFFFF#16 0xFF#8 15#4 15#4) = true ∧
    Instr.wellFormed 0#4 (.pushDirect 0#32) = true ∧ Instr.wellFormed 1#4 (.pushBfp95 0#32) = true ∧
    Instr.wellFormed 2#4 (.pushBfp126 0xFFFFFFFF#32) = true ∧ Instr.wellFormed 3#4 (.reserved67 1#1 0#32) = true := by decide

theorem witness_EncodeOfDecodeIsIdentity : decode 2#4 0x3FFFFFFFF#35 = .ok (.pushBfp126 0xFFFFFFFF#32) := by rfl

theorem witness_TableRowsMatchTheDecoder :
    decode 1#4 0x30000C0A0#35 = .ok (.pushBfp95 0x0000C0A0#32) ∧
    (∃ row ∈ opcodeTable, row.covers 1#4 0x30000C0A0#35 = true) ∧
    decode 0#4 0x20000FF0F#35 = .ok (.config 0#16 0xFF#8 0#4 15#4) ∧ Instr.writable (.config 0#16 0xFF#8 0#4 15#4) = true ∧
    decode 0#4 0x4000000FF#35 = .ok (.read 0#24 0xFF#8) ∧ Instr.writable (.read 0#24 0xFF#8) = true := by
  refine ⟨rfl, ?_, rfl, by decide, rfl, by decide⟩
  decide

theorem witness_StepRunsDecodedCommand :
    (offering inError 0x700000000#35).cmdIn = .cmd 0x700000000#35 :: [] ∧
    decode (offering inError 0x700000000#35).regs.cfgFmt 0x700000000#35 = .ok (.reserved67 1#1 0#32) := ⟨rfl, rfl⟩

theorem witness_ResetInputResetsWithoutResponse : (⟨inError, [.rst, .cmd 0#35], []⟩ : State).cmdIn = .rst :: [.cmd 0#35] := rfl

theorem witness_StepWithoutCommandHoldsState : (idle inError).cmdIn = [] := rfl

theorem witness_EveryCommandHasOneResult :
    (offering endOfP2 0x7FFFFFFFF#35).regs.inv ∧ (offering endOfP2 0x7FFFFFFFF#35).cmdIn = .cmd 0x7FFFFFFFF#35 :: [] := by decide

theorem witness_StepKeepsInvariants :
    (offering (configured .bfp126 160#8 512#16 511#16 0xFFFFFFFF#32) 0x31FFFFFFF#35).regs.inv ∧
    (nextOf (step (offering (configured .bfp126 160#8 512#16 511#16 0xFFFFFFFF#32) 0x31FFFFFFF#35))).isSome = true := by decide

theorem witness_NoRunStops : (offering inError 0x3FFFFFFFF#35).regs.inv := by decide

/-- The reset input offered in ERROR state, and a command that leaves it. -/
theorem witness_ResetCommandResetsEveryComponent :
    (⟨inError, [.rst], []⟩ : State).cmdIn = .rst :: [] ∧ (idle inError).regs.err ≠ 0#8 ∧
    exec (.reset 1#32) (idle inError) = .next ⟨Regs.reset, [], [⟨.none, 0#32, 0#32, 0#32, 0#32⟩]⟩ ∧ Regs.reset.err = 0#8 :=
  ⟨rfl, by decide, rfl, rfl⟩

theorem witness_ConfigFollowsItsRule :
    (idle Regs.reset).regs.err = 0#8 ∧ ((0x8000#16 ≠ 0#16 ∨ 0#4 ≠ 0#4) ∧ (0#16 ≠ 0#16 ∨ 1#4 ≠ 0#4)) ∧
    ((idle (configured .direct 20#8 64#16 63#16 0#32)).regs.err = 0#8 ∧
      (idle (configured .direct 20#8 64#16 63#16 0#32)).regs.scIdx ≠ 0#16) ∧
    ((idle Regs.reset).regs.scIdx = 0#16 ∧ 3 ≤ (3#4).toNat ∧ 3 ≤ (15#4).toNat) ∧
    ((2#4).toNat < 3 ∧ (0#8).toNat ∉ [20, 40, 80, 160] ∧ (161#8).toNat ∉ [20, 40, 80, 160] ∧ (255#8).toNat ∉ [20, 40, 80, 160]) ∧
    (((20#8).toNat, 64) ∈ [(20, 64), (40, 128), (80, 256), (160, 512)] ∧
      ((160#8).toNat, 512) ∈ [(20, 64), (40, 128), (80, 256), (160, 512)]) := by decide

theorem witness_ReadFollowsItsRule :
    ((0x00#8).toNat ≤ 0x0A ∧ (0x0A#8).toNat ≤ 0x0A) ∧
    ((idle endOfP2).regs.err = 0#8 ∧ 1#24 ≠ 0#24 ∧ 0x0A < (0x0B#8).toNat ∧ 0x0A < (0xFF#8).toNat) ∧
    answersAll [.rst, .cmd 0x200001400#35] ⟨ready20, [], [⟨.none, 0#32, 0#32, 0#32, 0#32⟩]⟩ ∧
    ∀ c, .cmd c ∈ [HostEvent.rst, .cmd 0x200001400#35] → Command.op c ≠ 3#3 := by
  refine ⟨by decide, by decide, rfl, ?_⟩
  intro c hc
  simp only [List.mem_cons, reduceCtorEq, HostEvent.cmd.injEq, List.not_mem_nil, or_false, false_or] at hc
  subst hc
  decide

theorem witness_RegisterMapValues : 0x0A < (0x0B#8).toNat ∧ 0x0A < (0xFF#8).toNat := by decide

theorem witness_ReadsDetermineTheState : ∀ n : BitVec 8, n.toNat ≤ 0x0A → regRead endOfP2 n = regRead endOfP2 n := fun _ _ => rfl

theorem witness_PushWithoutConfigurationRaisesNoCfg :
    (idle Regs.reset).regs.err = 0#8 ∧ (idle Regs.reset).regs.cfgCv = false := by decide

theorem witness_PushDirectResult :
    (idle ready20).regs.err = 0#8 ∧ (idle ready20).regs.cfgCv = true ∧ (idle ready20).regs.cfgFmt = 0#4 := by decide

theorem witness_PushBfp95Result :
    (idle (configured .bfp95 20#8 64#16 63#16 0#32)).regs.err = 0#8 ∧
    (idle (configured .bfp95 20#8 64#16 63#16 0#32)).regs.cfgCv = true ∧
    (idle (configured .bfp95 20#8 64#16 63#16 0#32)).regs.cfgFmt = 1#4 := by decide

theorem witness_PushBfp126Result :
    (idle endOfP2).regs.err = 0#8 ∧ (idle endOfP2).regs.cfgCv = true ∧ (idle endOfP2).regs.cfgFmt = 2#4 := by decide

theorem witness_StepPushUsesTheConfiguredFormat :
    (offering endOfP2 (3#3 ++ 0xFFFFFFFF#32)).regs.err = 0#8 ∧ (offering endOfP2 (3#3 ++ 0xFFFFFFFF#32)).regs.cfgCv = true ∧
    (offering endOfP2 (3#3 ++ 0xFFFFFFFF#32)).regs.cfgFmt = Format.bfp126.code ∧
    (offering endOfP2 (3#3 ++ 0xFFFFFFFF#32)).cmdIn = .cmd (3#3 ++ 0xFFFFFFFF#32) :: [] ∧
    ((offering Regs.reset (3#3 ++ 0#32)).regs.err = 0#8 ∧ (offering Regs.reset (3#3 ++ 0#32)).regs.cfgFmt = Format.direct.code ∧
      (offering Regs.reset (3#3 ++ 0#32)).regs.cfgCv = false) := by decide

theorem witness_PushAdvancesThePosition :
    ((configured .direct 160#8 512#16 511#16 0xFFFFFFFF#32).err = 0#8 ∧
      (configured .direct 160#8 512#16 511#16 0xFFFFFFFF#32).cfgCv = true ∧
      (configured .direct 160#8 512#16 511#16 0xFFFFFFFF#32).scIdx < (configured .direct 160#8 512#16 511#16 0xFFFFFFFF#32).nsub ∧
      (configured .direct 160#8 512#16 511#16 0xFFFFFFFF#32).scIdx.toNat + 1 = (512#16).toNat ∧
      (nextOf (exec (.pushDirect 0#32) (idle (configured .direct 160#8 512#16 511#16 0xFFFFFFFF#32)))).isSome = true) ∧
    (configured .direct 160#8 512#16 511#16 0xFFFFFFFF#32).inv ∧
    (endOfP2.err = 0#8 ∧ endOfP2.cfgCv = true ∧ endOfP2.scIdx < endOfP2.nsub ∧ endOfP2.scIdx.toNat + 1 ≠ endOfP2.nsub.toNat ∧
      (nextOf (exec (.pushBfp126 0#32) (idle endOfP2))).isSome = true) := by decide

/-- A CONFIG, a PUSH at the last subcarrier, and an error: between them every component changes. -/
theorem witness_EveryComponentHasItsWriters :
    ((nextOf (exec (.config 0#16 160#8 0#4 2#4) (idle Regs.reset))).map fun t =>
      (t.regs.cfgCv, t.regs.cfgFmt, t.regs.cfgBw, t.regs.nsub)) = some (true, 2#4, 160#8, 512#16) ∧
    ((nextOf (exec (.pushBfp126 0x31FFFFFFF#32) (idle (configured .bfp126 20#8 64#16 63#16 7#32)))).map fun t =>
      (t.regs.scIdx, t.regs.recIdx, t.regs.outValid, t.regs.outSc, t.regs.outRec)) = some (0#16, 8#32, true, 63#16, 7#32) ∧
    ((nextOf (exec (.pushBfp126 0x1FFFFFFF#32) (idle endOfP2))).map fun t => (t.regs.outRe, t.regs.outIm)) =
      some (0x697FE000#32, 0xE97FE000#32) ∧
    ((nextOf (exec (.reserved67 1#1 1#32) (idle ready20))).map fun t => (t.regs.err, t.regs.errOp, t.regs.errArg)) =
      some (1#8, 7#3, 1#32) := by decide

theorem witness_ErrorsArePrecise :
    (idle ready20).regs.err = 0#8 ∧ (nextOf (exec (.read 0#24 0x0B#8) (idle ready20))).map (fun t => t.regs.err) = some 1#8 := by
  decide

/-- One command for each case of the priority list. -/
theorem witness_ErrorCausesInPriorityOrder :
    (nextOf (exec (.config 0#16 20#8 1#4 3#4) (idle (configured .direct 20#8 64#16 5#16 0#32)))).map (fun t => t.regs.err) = some 1#8 ∧
    (nextOf (exec (.config 0#16 0#8 0#4 3#4) (idle (configured .direct 20#8 64#16 5#16 0#32)))).map (fun t => t.regs.err) = some 5#8 ∧
    (nextOf (exec (.config 0#16 0#8 0#4 3#4) (idle ready20))).map (fun t => t.regs.err) = some 2#8 ∧
    (nextOf (exec (.config 0#16 0#8 0#4 2#4) (idle ready20))).map (fun t => t.regs.err) = some 3#8 ∧
    (nextOf (exec (.pushDirect 0#32) (idle Regs.reset))).map (fun t => t.regs.err) = some 4#8 ∧
    (nextOf (exec (.pushDirect 0#32) (idle ready20))).map (fun t => t.regs.err) = some 0#8 := by decide

theorem witness_ErrorStateRunsOnlyThreeCommands :
    (idle inError).regs.err ≠ 0#8 ∧ regRead (idle inError).regs 0x0A#8 = some 0x00001234#32 ∧ 0x0A < (0x0B#8).toNat ∧
    1#24 ≠ 0#24 := by decide

theorem witness_OnlyResetLeavesTheErrorState :
    ((offering inError 0x300000000#35).regs.err ≠ 0#8 ∧
      (∀ e ∈ (offering inError 0x300000000#35).cmdIn, e ≠ .rst ∧ ∀ w, e = .cmd w → Command.op w ≠ 1#3) ∧
      runsTo 1 (offering inError 0x300000000#35) ⟨inError, [], [⟨.ignored, 0#32, 0#32, 0#32, 0#32⟩]⟩) ∧
    (offering inError 0x1FFFFFFFF#35).cmdIn = .cmd 0x1FFFFFFFF#35 :: [] ∧ Command.op 0x1FFFFFFFF#35 = 1#3 := by
  refine ⟨⟨by decide, ?_, rfl⟩, rfl, by decide⟩
  intro e he
  simp only [offering, List.mem_singleton] at he
  subst he
  exact ⟨by decide, fun w hw => by cases hw; decide⟩

theorem witness_ReservedOperationsRaiseErrCmd :
    ((Instr.reserved67 1#1 5#32, 7#3) : Instr × BitVec 3) ∈
      [(.reserved5 5#32, 5#3), (.reserved67 0#1 5#32, 6#3), (.reserved67 1#1 5#32, 7#3)] ∧
    (idle Regs.reset).regs.err = 0#8 ∧ (idle inError).regs.err ≠ 0#8 := by decide

/-- A CONFIG since the last reset input, and a reset input since the last CONFIG. -/
theorem witness_ConfiguredExactlyAfterSuccessfulConfig :
    answersAll [.rst, .cmd 0x200001400#35] ⟨ready20, [], [⟨.none, 0#32, 0#32, 0#32, 0#32⟩]⟩ ∧
    answersAll [.cmd 0x200001400#35, .rst] ⟨Regs.reset, [], [⟨.none, 0#32, 0#32, 0#32, 0#32⟩]⟩ := ⟨rfl, rfl⟩

theorem witness_OutputValidExactlyAfterPush :
    (Instr.op (.config 0#16 20#8 0#4 0#4) = 2#3 ∧
      exec (.config 0#16 20#8 0#4 0#4) (idle Regs.reset) = .next ⟨ready20, [], [⟨.none, 0#32, 0#32, 0#32, 0#32⟩]⟩) ∧
    answersAll [.cmd 0x200001400#35, .cmd 0x300000000#35]
      ⟨{ ready20 with scIdx := 1#16, outValid := true }, [],
        [⟨.none, 0#32, 0#32, 0#32, 0#32⟩, ⟨.sample, 0#32, 0#32, 0#32, 0#32⟩]⟩ ∧
    answersAll [.cmd 0x200001400#35, .cmd 0x300000000#35, .rst]
      ⟨Regs.reset, [], [⟨.none, 0#32, 0#32, 0#32, 0#32⟩, ⟨.sample, 0#32, 0#32, 0#32, 0#32⟩]⟩ := ⟨⟨rfl, rfl⟩, rfl, rfl⟩

/-- A history that ends in an error, and two that a reset of either source ends. -/
theorem witness_ErrorRegistersHoldTheErrorSinceReset :
    answersAll [.rst, .cmd 0x300000005#35]
      ⟨{ Regs.reset with err := 4#8, errOp := 3#3, errArg := 5#32 }, [], [⟨.error, 4#32, 0#32, 0#32, 0#32⟩]⟩ ∧
    answersAll [.cmd 0x300000005#35, .cmd 0x100000000#35]
      ⟨Regs.reset, [], [⟨.error, 4#32, 0#32, 0#32, 0#32⟩, ⟨.none, 0#32, 0#32, 0#32, 0#32⟩]⟩ ∧
    answersAll [.cmd 0x300000005#35, .rst] ⟨Regs.reset, [], [⟨.error, 4#32, 0#32, 0#32, 0#32⟩]⟩ ∧
    [HostEvent.rst, .cmd 0x300000005#35] = [.rst] ++ .cmd 0x300000005#35 :: [] ∧ noReset [] :=
  ⟨rfl, rfl, rfl, rfl, by simp [noReset]⟩

theorem witness_ResponsesFollowCommandOrder :
    answersAll [.cmd 0x300000005#35]
      ⟨{ Regs.reset with err := 4#8, errOp := 3#3, errArg := 5#32 }, [], [⟨.error, 4#32, 0#32, 0#32, 0#32⟩]⟩ ∧
    answersAll ([.cmd 0x300000005#35] ++ [.rst, .cmd 0x100000000#35])
      ⟨Regs.reset, [], [⟨.error, 4#32, 0#32, 0#32, 0#32⟩, ⟨.none, 0#32, 0#32, 0#32, 0#32⟩]⟩ := ⟨rfl, rfl⟩

theorem witness_PassFillsTheMatrixInOrder : nsubOf 20#8 = some 64#16 ∧ nsubOf 160#8 = some 512#16 := by decide

/-- The pass of no word is whole; the pass of one word is not. -/
theorem witness_PassIsWholeOnWholeRecords :
    nsubOf 20#8 = some 64#16 ∧
    runsTo 2 { State.reset with cmdIn := passEvents .direct 20#8 [] }
      ⟨ready20, [], [⟨.none, 0#32, 0#32, 0#32, 0#32⟩, ⟨.none, 0#32, 0#32, 0#32, 0#32⟩]⟩ ∧
    ([] : List Word).length = 0 * (64#16).toNat ∧
    runsTo 3 { State.reset with cmdIn := passEvents .direct 20#8 [0#32] }
      ⟨{ ready20 with scIdx := 1#16, outValid := true }, [],
        [⟨.none, 0#32, 0#32, 0#32, 0#32⟩, ⟨.none, 0#32, 0#32, 0#32, 0#32⟩, ⟨.sample, 0#32, 0#32, 0#32, 0#32⟩]⟩ :=
  ⟨rfl, rfl, rfl, rfl⟩

/-- The least and the greatest magnitude of the domain. -/
theorem witness_F32IsExactOnItsDomain :
    ((0 : Int).natAbs = 0 * 2 ^ 0 ∧ (0 : Nat) < 2 ^ 24 ∧ (0 : Int).natAbs < 2 ^ 128) ∧
    ((-((2 ^ 24 - 1) * 2 ^ 104) : Int).natAbs = (2 ^ 24 - 1) * 2 ^ 104 ∧ 2 ^ 24 - 1 < 2 ^ 24 ∧
      (-((2 ^ 24 - 1) * 2 ^ 104) : Int).natAbs < 2 ^ 128) := by decide

theorem witness_DirectRoundTripIsExact :
    ((-32768 : Int) ≤ -32768 ∧ (-32768 : Int) ≤ 32767) ∧ ((-32768 : Int) ≤ 32767 ∧ (32767 : Int) ≤ 32767) := by decide

theorem witness_BfpFieldsRoundTrip :
    BfpFields.fits 9 5 ⟨31, 255, true, 255, true⟩ ∧ BfpFields.fits 12 6 ⟨63, 2047, true, 2047, true⟩ := by decide

theorem witness_UnusedBitsChangeNothing :
    (configured .bfp95 20#8 64#16 63#16 0#32).err = 0#8 ∧ (configured .bfp95 20#8 64#16 63#16 0#32).cfgCv = true ∧
    (configured .bfp95 20#8 64#16 63#16 0#32).cfgFmt = 1#4 ∧ (0xFF80C0A0#32).toNat % 2 ^ 23 = (0x0000C0A0#32).toNat % 2 ^ 23 ∧
    (endOfP2.err = 0#8 ∧ endOfP2.cfgCv = true ∧ endOfP2.cfgFmt = 2#4 ∧
      (0xC00C0140#32).toNat % 2 ^ 30 = (0x000C0140#32).toNat % 2 ^ 30) := by decide

/-- The last exponent that has a successor, in both formats, with nonzero components. -/
theorem witness_ExponentStepDoublesBothComponents :
    ((0x0000C0BE#32).toNat % 2 ^ 5 < 2 ^ 5 - 1 ∧ (bfpDecode 9 5 0x0000C0BE#32).1 ≠ 0 ∧ (bfpDecode 9 5 0x0000C0BE#32).2 ≠ 0) ∧
    ((0x0004007E#32).toNat % 2 ^ 6 < 2 ^ 6 - 1 ∧ (bfpDecode 12 6 0x0004007E#32).1 ≠ 0 ∧
      (bfpDecode 12 6 0x0004007E#32).2 ≠ 0) := by decide

theorem witness_SignBitsNegateTheirOwnComponent :
    ((0x0000C0A0#32).getLsbD (5 + 2 * 9 - 1) = false ∧ (0x0000C0A0#32).getLsbD (5 + 9 - 1) = false) ∧
    ((0x00040040#32).getLsbD (6 + 2 * 12 - 1) = false ∧ (0x00040040#32).getLsbD (6 + 12 - 1) = false) := by decide

/-- The least and the greatest magnitude of each format. -/
theorem witness_ComponentRange :
    (bfpDecode 9 5 0x00004000#32).1 ≠ 0 ∧ (bfpDecode 9 5 0x003FFFFF#32).2 ≠ 0 ∧ (bfpDecode 12 6 0x00040040#32).1 ≠ 0 ∧
    (bfpDecode 12 6 0x1FFFFFFF#32).2 ≠ 0 := by decide

/-- The exponents on both sides of the sign of the field. -/
theorem witness_SignedExponentReadingIsExact :
    (bfpFields 9 5 15#32).exp < 2 ^ (5 - 1) ∧ ¬(bfpFields 9 5 16#32).exp < 2 ^ (5 - 1) ∧ (bfpFields 12 6 31#32).exp < 2 ^ (6 - 1) ∧
    ¬(bfpFields 12 6 32#32).exp < 2 ^ (6 - 1) := by decide

theorem witness_RecordBytesMakeItsWords :
    4 ∣ [0x64#8, 0x00#8, 0xCE#8, 0xFF#8].length ∧ payloadWords .le [0x64#8, 0x00#8, 0xCE#8, 0xFF#8] = some [0xFFCE0064#32] ∧
    [0xFFCE0064#32][0]? = some 0xFFCE0064#32 := by decide

theorem witness_AssemblerWritesOnlyLegalForms :
    (15 ≤ 15 ∧ 255 ≤ 255 ∧ 0xFFFFFFFF < 2 ^ 32 ∧ 7 < 8) ∧ assemble (.read 255) = some 0x4000000FF#35 ∧
    ∀ op arg, AsmLine.read 255 ≠ .cmd op arg := by
  refine ⟨by decide, by decide, fun op arg h => by cases h⟩

theorem witness_PseudoInstructionsMakeTheirPush :
    assemble (.pushIq 32767 (-32768)) = some 0x380007FFF#35 ∧ assemble (.pushB95 1 255 1 255 31) = some 0x3007FFFFF#35 ∧
    assemble (.pushB126 1 2047 1 2047 63) = some 0x33FFFFFFF#35 := by decide

theorem witness_BlocksShareNothing :
    ([offering ready20 0x300000000#35, offering inError 0x100000000#35][1]? = some (offering inError 0x100000000#35) ∧
      step (offering inError 0x100000000#35) = .next ⟨Regs.reset, [], [⟨.none, 0#32, 0#32, 0#32, 0#32⟩]⟩) ∧
    stepAt 0 [offering ready20 0x300000000#35, offering inError 0x100000000#35] =
      .next [⟨{ ready20 with scIdx := 1#16, outValid := true }, [], [⟨.sample, 0#32, 0#32, 0#32, 0#32⟩]⟩,
        offering inError 0x100000000#35] ∧
    stepAt 1 [⟨{ ready20 with scIdx := 1#16, outValid := true }, [], [⟨.sample, 0#32, 0#32, 0#32, 0#32⟩]⟩,
        offering inError 0x100000000#35] =
      .next [⟨{ ready20 with scIdx := 1#16, outValid := true }, [], [⟨.sample, 0#32, 0#32, 0#32, 0#32⟩]⟩,
        ⟨Regs.reset, [], [⟨.none, 0#32, 0#32, 0#32, 0#32⟩]⟩] := ⟨⟨rfl, rfl⟩, rfl, rfl⟩

/-- No reset, no command, and a host that takes no response. -/
def quiet : PinsIn := ⟨false, false, 0#3, 0#32, false⟩

/-- A port with a response offered. -/
def offeringPort : Port := ⟨⟨inError, [], [Response.ignored]⟩, 1, 1, 0, 0⟩

/-- A port with a PUSH waiting before any CONFIG, about to answer. -/
def waitingPort : Port := ⟨⟨Regs.reset, [.cmd 0x300000000#35], []⟩, 1, 0, 0, 0⟩

theorem inv_offeringPort : offeringPort.inv :=
  ⟨by decide, by simp [offeringPort], by simp [offeringPort]⟩

theorem inv_waitingPort : waitingPort.inv :=
  ⟨by decide, by simp [waitingPort], by simp [waitingPort]⟩

theorem witness_PortRefinesTheTransactionMachine :
    offeringPort.core.rspOut = Response.ignored :: [] ∧ waitingPort.core.rspOut = [] := ⟨rfl, rfl⟩

theorem witness_PortKeepsItsInvariant : offeringPort.inv ∧ waitingPort.inv := ⟨inv_offeringPort, inv_waitingPort⟩

theorem witness_OfferedResponseIsStable :
    offeringPort.inv ∧ quiet.rst = false ∧ offeringPort.rspValid false = true ∧ quiet.rspReady = false :=
  ⟨inv_offeringPort, rfl, rfl, rfl⟩

theorem witness_PortResetClearsEverything : (⟨true, true, 3#3, 0#32, true⟩ : PinsIn).rst = true := rfl

theorem witness_WaitingCommandIsAnswered :
    waitingPort.inv ∧ waitingPort.core.cmdIn ≠ [] ∧ waitingPort.core.rspOut = [] ∧ [quiet].length = waitingPort.wait + 1 ∧
    ∀ i ∈ [quiet], i.rst = false := by
  refine ⟨inv_waitingPort, by simp [waitingPort], rfl, rfl, ?_⟩
  intro i hi
  simp only [List.mem_singleton] at hi
  subst hi
  rfl

/-- The level rises at the edge at which the waiting PUSH is answered, and stays up while nothing is offered. -/
theorem witness_ErrorLevelFollowsTheResponse :
    waitingPort.inv ∧ (waitingPort.pins false).err = false ∧ ((waitingPort.tick quiet).pins false).err = true ∧
    offeringPort.inv ∧ (offeringPort.pins false).err = true ∧ quiet.rst = false ∧ Command.op quiet.command ≠ 1#3 ∧
    ∀ w, .cmd w ∈ offeringPort.core.cmdIn → Command.op w ≠ 1#3 :=
  ⟨inv_waitingPort, rfl, rfl, inv_offeringPort, rfl, rfl, by decide, by simp [offeringPort]⟩

end Sys2Proof.Tests
end

/-! PROOFS. The register map and the values after reset (10_state.md R23, R25, R35, R37). -/

namespace Sys2Proof.Machine

section
variable (r : Regs)

/-! One equation per register number (10_state.md R35). -/

@[simp] theorem regRead_status : regRead r 0x00#8 = some r.status := rfl
@[simp] theorem regRead_cfg : regRead r 0x01#8 = some r.cfg := rfl
@[simp] theorem regRead_nsub : regRead r 0x02#8 = some (BitVec.setWidth 32 r.nsub) := rfl
@[simp] theorem regRead_scIdx : regRead r 0x03#8 = some (BitVec.setWidth 32 r.scIdx) := rfl
@[simp] theorem regRead_recIdx : regRead r 0x04#8 = some r.recIdx := rfl
@[simp] theorem regRead_outRe : regRead r 0x05#8 = some r.outRe := rfl
@[simp] theorem regRead_outIm : regRead r 0x06#8 = some r.outIm := rfl
@[simp] theorem regRead_outSc : regRead r 0x07#8 = some (BitVec.setWidth 32 r.outSc) := rfl
@[simp] theorem regRead_outRec : regRead r 0x08#8 = some r.outRec := rfl
@[simp] theorem regRead_errOp : regRead r 0x09#8 = some (BitVec.setWidth 32 r.errOp) := rfl
@[simp] theorem regRead_errArg : regRead r 0x0A#8 = some r.errArg := rfl

/-- `STATUS.STATE` as a number (10_state.md R24). -/
theorem stateField_toNat : r.stateField.toNat = if r.err ≠ 0#8 then 2 else if r.cfgCv then 1 else 0 := by
  unfold Regs.stateField
  split
  · rfl
  · split <;> rfl

/-- STATUS as a number built from its fields (10_state.md R23). -/
theorem status_toNat :
    r.status.toNat =
      r.err.toNat + r.cfgCv.toNat * 2 ^ 8 + r.outValid.toNat * 2 ^ 9 + r.stateField.toNat * 2 ^ 10 := by
  unfold Regs.status
  rw [BitVec.toNat_setWidth_of_le (by decide)]
  simp only [append_toNat, BitVec.toNat_ofBool]
  omega

/-- CFG as a number built from its fields (10_state.md R25). -/
theorem cfg_toNat : r.cfg.toNat = r.cfgFmt.toNat + r.cfgBw.toNat * 2 ^ 8 + r.cfgCv.toNat * 2 ^ 31 := by
  unfold Regs.cfg
  simp only [append_toNat, BitVec.toNat_ofBool, BitVec.toNat_ofNat]
  omega

end

/-- A view narrower than the response word is zero-extended: its reserved bits are 0 (10_state.md R35). -/
theorem map_toNat_setWidth {w : Nat} (x : BitVec w) (hw : w ≤ 32) :
    (some (BitVec.setWidth 32 x)).map BitVec.toNat = some x.toNat :=
  congrArg some (BitVec.toNat_setWidth_of_le hw)

/-- Settles O18: each view by its own equation, STATUS and CFG as sums of their fields. -/
theorem registerMapValues : Obligations.RegisterMapValues := by
  intro r
  refine ⟨?status, ?cfg, ?nsub, ?scIdx, regRead_recIdx r, regRead_outRe r, regRead_outIm r, ?outSc, regRead_outRec r, ?errOp,
    regRead_errArg r, fun _ hn => regRead_none hn⟩
  case status => rw [regRead_status, Option.map_some, status_toNat, stateField_toNat]
  case cfg => rw [regRead_cfg, Option.map_some, cfg_toNat]
  case nsub => exact regRead_nsub r ▸ map_toNat_setWidth r.nsub (by decide)
  case scIdx => exact regRead_scIdx r ▸ map_toNat_setWidth r.scIdx (by decide)
  case outSc => exact regRead_outSc r ▸ map_toNat_setWidth r.outSc (by decide)
  case errOp => exact regRead_errOp r ▸ map_toNat_setWidth r.errOp (by decide)

/-- Settles O15: the fourteen components by their equations; STATUS and its STATE field are views of components that are 0. -/
theorem resetValues : Obligations.ResetValues := by
  have state : Regs.reset.stateField = 0#2 := by simp [Regs.stateField]
  have status : Regs.reset.status = 0x00000000#32 := by simp [Regs.status, state]
  simp [Obligations.ResetValues, state, status]

end Sys2Proof.Machine

/-! PROOFS. Over every history from reset: `CFG.CV`, `OUT_VALID` and the recorded error say what happened since the last reset
(10_state.md R26, R32, R33, R34). One lemma says all that a command can do; one induction carries it along a history. -/

namespace Sys2Proof.Machine

/-! What a command can do -/

/-- All that a command can do to the components, with the response it gives: it resets them, keeps them, raises an error,
begins a pass or gives a sample (40_control.md R100 to R108). -/
inductive Effect (i : Instr) (r : Regs) : Regs × Response → Prop where
  | reset (op : i.op = 1#3) : Effect i r (Regs.reset, Response.nothing)
  | kept (rsp : Response) (op : i.op ≠ 1#3) (noConfig : i.op = 2#3 → rsp.kind ≠ .none) (noSample : rsp.kind ≠ .sample)
      (noError : rsp.kind ≠ .error) : Effect i r (r, rsp)
  | raised (code : ErrorCode) (op : i.op ≠ 1#3) (first : r.err = 0#8) : Effect i r (raiseError code i.op i.arg r)
  | passBegun (fmt : BitVec 4) (bw : BitVec 8) (n : BitVec 16) (op : i.op = 2#3) :
      Effect i r (beginPass fmt bw n r, Response.nothing)
  | sampled (re im : Word) (op : i.op = 3#3) :
      Effect i r (advance (recordOutput re im r), Response.sample re im r.recIdx r.scIdx)

/-- A command ignored in ERROR state keeps every component, so that its effect is settled by the one it has outside it
(60_exceptions.md R165). -/
theorem Effect.of_unlessError {i : Instr} {r : Regs} {run : Regs → Regs × Response} (op : i.op ≠ 1#3)
    (h : r.err = 0#8 → Effect i r (run r)) : Effect i r (unlessError run r) := by
  rcases unlessError_cases run r with ⟨_, heq⟩ | ⟨he, heq⟩
  · rw [heq]
    exact .kept _ op (by simp [Response.ignored]) (by simp [Response.ignored]) (by simp [Response.ignored])
  · rw [heq]
    exact h he

/-- CONFIG raises an error or begins a pass (40_control.md R103). -/
theorem Effect.of_configure (rsvHi : BitVec 16) (bw : BitVec 8) (rsvLo fmt : BitVec 4) {r : Regs} (he : r.err = 0#8) :
    Effect (.config rsvHi bw rsvLo fmt) r (configure rsvHi bw rsvLo fmt r) := by
  have raises (code : ErrorCode) :
      Effect (.config rsvHi bw rsvLo fmt) r (raiseError code 2#3 (configArg rsvHi bw rsvLo fmt) r) :=
    .raised code (by simp [Instr.op]) he
  rcases configure_cases rsvHi bw rsvLo fmt r with
    ⟨_, heq⟩ | ⟨_, _, heq⟩ | ⟨_, _, _, heq⟩ | ⟨_, _, _, _, heq⟩ | ⟨_, _, _, n, _, heq⟩
  · exact heq ▸ raises .cmd
  · exact heq ▸ raises .partialRecord
  · exact heq ▸ raises .device
  · exact heq ▸ raises .bw
  · exact heq ▸ .passBegun fmt bw n rfl

/-- A PUSH of any form raises ERR_NOCFG or gives a sample (40_control.md R106). -/
theorem Effect.of_push {i : Instr} (op : i.op = 3#3) (o : Word × Word) {r : Regs} (he : r.err = 0#8) :
    Effect i r (push o i.arg r) := by
  rcases push_cases o i.arg r with ⟨_, heq⟩ | ⟨_, heq⟩
  · have raises : Effect i r (raiseError .noCfg i.op i.arg r) := .raised .noCfg (by simp [op]) he
    rwa [heq, ← op]
  · exact heq ▸ .sampled o.1 o.2 op

/-- READ keeps every component or raises ERR_CMD (40_control.md R105). -/
theorem Effect.of_readRegister (rsv : BitVec 24) (n : BitVec 8) (r : Regs) :
    Effect (.read rsv n) r (readRegister rsv n r) := by
  have op : (Instr.read rsv n).op ≠ 1#3 := by simp [Instr.op]
  rcases readRegister_cases rsv n r with ⟨v, _, _, _, heq⟩ | ⟨_, _, heq⟩ | ⟨_, he, heq⟩
  · exact heq ▸ .kept _ op (by simp [Response.data]) (by simp [Response.data]) (by simp [Response.data])
  · exact heq ▸ .kept _ op (by simp [Response.ignored]) (by simp [Response.ignored]) (by simp [Response.ignored])
  · exact heq ▸ .raised .cmd op he

/-- The operations 6 and 7 are not RESET (30_encoding.md R72). -/
theorem reserved67_op_ne_reset (low : BitVec 1) (arg : Word) : (Instr.reserved67 low arg).op ≠ 1#3 := by
  intro h
  obtain ⟨_, heq⟩ := Instr.eq_reset_of_op h
  cases heq

/-- Every command has one of the effects. -/
theorem runOf_effect (i : Instr) (r : Regs) : Effect i r (runOf i r) := by
  cases i with
  | nop arg => exact .kept _ (by simp [Instr.op]) (by simp [Instr.op]) (by simp [Response.nothing]) (by simp [Response.nothing])
  | reset arg => exact .reset rfl
  | config rsvHi bw rsvLo fmt => exact .of_unlessError (by simp [Instr.op]) (.of_configure rsvHi bw rsvLo fmt)
  | pushDirect w => exact .of_unlessError (by simp [Instr.op]) (.of_push (i := .pushDirect w) rfl _)
  | pushBfp95 w => exact .of_unlessError (by simp [Instr.op]) (.of_push (i := .pushBfp95 w) rfl _)
  | pushBfp126 w => exact .of_unlessError (by simp [Instr.op]) (.of_push (i := .pushBfp126 w) rfl _)
  | read rsv n => exact .of_readRegister rsv n r
  | reserved5 arg => exact .of_unlessError (by simp [Instr.op]) (.raised .cmd (by simp [Instr.op]))
  | reserved67 low arg =>
    have op := reserved67_op_ne_reset low arg
    exact .of_unlessError op (.raised .cmd op)

/-- `CFG.CV` after a command: set by a successful CONFIG, cleared by RESET (10_state.md R26). -/
theorem runOf_cfgCv (i : Instr) (r : Regs) :
    (runOf i r).1.cfgCv = true ↔
      (i.op = 2#3 ∧ (runOf i r).2 = Response.nothing) ∨ (i.op ≠ 1#3 ∧ r.cfgCv = true) := by
  have h := runOf_effect i r
  generalize runOf i r = result at h
  cases h with
  | reset op => simp [op]
  | kept rsp op noConfig =>
    have : ¬ (i.op = 2#3 ∧ rsp = Response.nothing) := fun ⟨hop, hrsp⟩ => noConfig hop (by rw [hrsp]; rfl)
    simp [op, this]
  | raised code op => simp [op, Response.error, Response.nothing]
  | passBegun fmt bw n op => simp [op]
  | sampled re im op => simp [op]

/-- `OUT_VALID` after a command: set by a PUSH answered SAMPLE, cleared by a successful CONFIG and by RESET (10_state.md R32). -/
theorem runOf_outValid (i : Instr) (r : Regs) :
    (runOf i r).1.outValid = true ↔
      (i.op = 3#3 ∧ (runOf i r).2.kind = .sample) ∨
      (i.op ≠ 1#3 ∧ ¬ (i.op = 2#3 ∧ (runOf i r).2.kind = .none) ∧ r.outValid = true) := by
  have h := runOf_effect i r
  generalize runOf i r = result at h
  cases h with
  | reset op => simp [op]
  | kept rsp op noConfig noSample => simpa [op, noSample] using fun _ => noConfig
  | raised code op => simp [op, Response.error]
  | passBegun fmt bw n op => simp [op, Response.nothing]
  | sampled re im op => simp [op, Response.sample]

/-- A CONFIG answered NONE has begun a pass (40_control.md R103). -/
theorem runOf_config_answered_nothing {i : Instr} {r : Regs} (op : i.op = 2#3) (answered : (runOf i r).2 = Response.nothing) :
    ∃ fmt bw n, (runOf i r).1 = beginPass fmt bw n r := by
  have h := runOf_effect i r
  generalize runOf i r = result at h answered
  cases h with
  | reset op' => simp [op] at op'
  | kept rsp _ noConfig => exact absurd (by rw [show rsp = Response.nothing from answered]; rfl) (noConfig op)
  | raised code => simp [Response.error, Response.nothing] at answered
  | passBegun fmt bw n => exact ⟨fmt, bw, n, rfl⟩
  | sampled re im op' => simp [op] at op'

/-! The word of a decoded command -/

/-- A PUSH word decodes to a PUSH form with the payload word it holds (30_encoding.md R83). -/
theorem decodePush_fields {fmt : BitVec 4} {w : Word} {i : Instr} (h : decodePush fmt w = .ok i) : i.op = 3#3 ∧ i.arg = w := by
  unfold decodePush at h
  split at h <;> cases h <;> exact ⟨rfl, rfl⟩

/-- A command has the `op` and the `arg` of the word it was decoded from (30_encoding.md R88). -/
theorem decode_fields {fmt : BitVec 4} {cmd : Command} {i : Instr} (h : decode fmt cmd = .ok i) :
    i.op = Command.op cmd ∧ i.arg = Command.arg cmd := by
  rw [← Command.mk_op_arg cmd, decode_mk] at h
  generalize Command.arg cmd = arg at h ⊢
  rcases op_cases (Command.op cmd) with hop | hop | hop | hop | hop | hop | hop | hop <;> rw [hop] at h ⊢
  · cases h; exact ⟨rfl, rfl⟩
  · cases h; exact ⟨rfl, rfl⟩
  · cases h; exact ⟨rfl, configArg_fields arg⟩
  · exact decodePush_fields h
  · cases h; exact ⟨rfl, readArg_fields arg⟩
  · cases h; exact ⟨rfl, rfl⟩
  · cases h; exact ⟨rfl, rfl⟩
  · cases h; exact ⟨rfl, rfl⟩

/-! Histories -/

/-- Induction over the histories from reset, one event more at a time (20_memory.md R58). -/
theorem answersAll_induction {motive : ∀ evs t, answersAll evs t → Prop} (nil : ∀ h, motive [] State.reset h)
    (rst : ∀ evs u (hu : answersAll evs u), motive evs u hu → ∀ h, motive (evs ++ [.rst]) ⟨Regs.reset, [], u.rspOut⟩ h)
    (cmd : ∀ evs u c i (hu : answersAll evs u), decode u.regs.cfgFmt c = .ok i → motive evs u hu →
      ∀ h, motive (evs ++ [.cmd c]) ⟨(runOf i u.regs).1, [], u.rspOut ++ [(runOf i u.regs).2]⟩ h)
    {evs : List HostEvent} {t : State} (h : answersAll evs t) : motive evs t h := by
  induction evs using List.reverseRecOn generalizing t with
  | nil =>
    obtain rfl := (answersAll_nil t).mp h
    exact nil h
  | append_singleton evs e ih =>
    cases e with
    | rst =>
      obtain ⟨u, hu, _, rfl⟩ := (answersAll_snoc_rst evs t).mp h
      exact rst evs u hu (ih hu) h
    | cmd c =>
      obtain ⟨u, i, hu, _, hd, rfl⟩ := (answersAll_snoc_cmd evs c t).mp h
      exact cmd evs u c i hu hd (ih hu) h

/-- There is one response per command (20_memory.md R58). -/
theorem answersAll_length {evs : List HostEvent} {t : State} (h : answersAll evs t) : t.rspOut.length = commandCount evs := by
  induction h using answersAll_induction with
  | nil => rfl
  | rst evs u _ ih => simpa using ih
  | cmd evs u c i _ _ ih => simpa using ih

/-- In the history `evs` with the responses `out`, the command `c` has been answered `rsp`, and since then there has been no reset
of either source and no command whose `op` and response satisfy `ends`. -/
def AnsweredSince (ends : BitVec 3 → Response → Prop) (evs : List HostEvent) (out : List Response) (c : Command)
    (rsp : Response) : Prop :=
  ∃ pre post, evs = pre ++ .cmd c :: post ∧ noReset post ∧ out[commandCount pre]? = some rsp ∧
    ∀ post₁ d post₂ q, post = post₁ ++ .cmd d :: post₂ → out[commandCount pre + 1 + commandCount post₁]? = some q →
      ¬ ends (Command.op d) q

/-- The two ways to find an event in a list with one event more: it is that event, or it stands before. -/
theorem snoc_eq_append_cons {evs pre post : List HostEvent} {e a : HostEvent} :
    evs ++ [e] = pre ++ a :: post ↔
      (evs = pre ∧ e = a ∧ post = []) ∨ ∃ post', post = post' ++ [e] ∧ evs = pre ++ a :: post' := by
  constructor
  · intro h
    rcases List.eq_nil_or_concat' post with rfl | ⟨post', b, rfl⟩
    · obtain ⟨rfl, h2⟩ := List.append_inj' h rfl
      cases h2
      exact .inl ⟨rfl, rfl, rfl⟩
    · rw [← List.cons_append, ← List.append_assoc] at h
      obtain ⟨h1, h2⟩ := List.append_inj' h rfl
      cases h2
      exact .inr ⟨post', rfl, h1⟩
  · rintro (⟨rfl, rfl, rfl⟩ | ⟨post', rfl, rfl⟩)
    · rfl
    · simp

/-! The reset sources of a history, event by event. -/

theorem noReset_nil : noReset [] := by simp [noReset]

theorem noReset_snoc (evs : List HostEvent) (e : HostEvent) : noReset (evs ++ [e]) ↔ noReset evs ∧ e.isReset = false := by
  simp [noReset, or_imp, forall_and]

theorem noReset_cons (e : HostEvent) (evs : List HostEvent) : noReset (e :: evs) ↔ e.isReset = false ∧ noReset evs := by
  simp [noReset]

/-- A command is a reset source only as RESET (70_reset_and_hazards.md R190). -/
theorem isReset_cmd (c : Command) : (HostEvent.cmd c).isReset = false ↔ Command.op c ≠ 1#3 := by
  simp [HostEvent.isReset]

section
variable {ends : BitVec 3 → Response → Prop} {evs : List HostEvent} {out : List Response} {c d : Command} {rsp q : Response}

/-- In the history of no event nothing has been answered. -/
theorem not_answeredSince_nil : ¬ AnsweredSince ends [] out c rsp := by
  rintro ⟨pre, post, h, _⟩
  simp at h

/-- The reset input ends everything. -/
theorem not_answeredSince_snoc_rst : ¬ AnsweredSince ends (evs ++ [.rst]) out c rsp := by
  rintro ⟨pre, post, h, hpost, _⟩
  rcases snoc_eq_append_cons.mp h with ⟨_, h, _⟩ | ⟨post', rfl, _⟩
  · cases h
  · simp [noReset_snoc, HostEvent.isReset] at hpost

/-- One command more: it is the one answered, or it leaves what stood before, unless it is RESET or satisfies `ends`. -/
theorem answeredSince_snoc_cmd (hlen : out.length = commandCount evs) :
    AnsweredSince ends (evs ++ [.cmd d]) (out ++ [q]) c rsp ↔
      (c = d ∧ rsp = q) ∨ (Command.op d ≠ 1#3 ∧ ¬ ends (Command.op d) q ∧ AnsweredSince ends evs out c rsp) := by
  have last : (out ++ [q])[commandCount evs]? = some q := by simp [← hlen]
  have before {n : Nat} (hn : n < commandCount evs) : (out ++ [q])[n]? = out[n]? :=
    List.getElem?_append_left (hlen ▸ hn)
  constructor
  · rintro ⟨pre, post, h, hpost, hrsp, hends⟩
    rcases snoc_eq_append_cons.mp h with ⟨rfl, hc, _⟩ | ⟨post', rfl, rfl⟩
    · cases hc
      rw [last] at hrsp
      exact .inl ⟨rfl, (Option.some.inj hrsp).symm⟩
    · obtain ⟨hpost', hd⟩ := (noReset_snoc _ _).mp hpost
      rw [before (by simp)] at hrsp
      refine .inr ⟨(isReset_cmd d).mp hd, ?_, pre, post', rfl, hpost', hrsp, ?_⟩
      · refine hends post' d [] q rfl ?_
        rw [← last]
        simp [Nat.add_assoc, Nat.add_comm 1]
      · rintro post₁ x post₂ y rfl hy
        refine hends post₁ x (post₂ ++ [.cmd d]) y (by simp) ?_
        rwa [before (by simp; omega)]
  · rintro (⟨rfl, rfl⟩ | ⟨hd, hq, pre, post, rfl, hpost, hrsp, hends⟩)
    · exact ⟨evs, [], rfl, noReset_nil, last, by simp⟩
    · refine ⟨pre, post ++ [.cmd d], by simp, (noReset_snoc _ _).mpr ⟨hpost, (isReset_cmd d).mpr hd⟩, ?_, ?_⟩
      · rwa [before (by simp)]
      · intro post₁ x post₂ y h hy
        rcases snoc_eq_append_cons.mp h with ⟨rfl, hx, _⟩ | ⟨post', rfl, rfl⟩
        · cases hx
          have : y = q := by
            rw [← Option.some.injEq, ← hy, ← last]
            simp [Nat.add_assoc, Nat.add_comm 1]
          exact this ▸ hq
        · rw [before (by simp; omega)] at hy
          exact hends post₁ x post' y rfl hy

/-- Where nothing but a reset ends it. -/
theorem answeredSince_never :
    AnsweredSince (fun _ _ => False) evs out c rsp ↔
      ∃ pre post, evs = pre ++ .cmd c :: post ∧ noReset post ∧ out[commandCount pre]? = some rsp := by
  simp [AnsweredSince]

end

/-- A flag that is off after reset, that a command with `sets` turns on, and that RESET or a command with `ends` turns off, is on
exactly when a command with `sets` has been answered since the last of those that turn it off. -/
theorem flag_iff_answeredSince {flag : Regs → Bool} {sets ends : BitVec 3 → Response → Prop}
    (atReset : flag Regs.reset = false)
    (afterCommand : ∀ i r, flag (runOf i r).1 = true ↔
      sets i.op (runOf i r).2 ∨ (i.op ≠ 1#3 ∧ ¬ ends i.op (runOf i r).2 ∧ flag r = true))
    {evs : List HostEvent} {t : State} (h : answersAll evs t) :
    flag t.regs = true ↔ ∃ c rsp, sets (Command.op c) rsp ∧ AnsweredSince ends evs t.rspOut c rsp := by
  induction h using answersAll_induction with
  | nil => simp [atReset, not_answeredSince_nil]
  | rst evs u => simp [atReset, not_answeredSince_snoc_rst]
  | cmd evs u c i hu hd ih =>
    rw [afterCommand, ih, (decode_fields hd).1]
    simp only [answeredSince_snoc_cmd (answersAll_length hu)]
    constructor
    · rintro (hs | ⟨h1, h2, x, rsp, hs, hx⟩)
      · exact ⟨c, _, hs, .inl ⟨rfl, rfl⟩⟩
      · exact ⟨x, rsp, hs, .inr ⟨h1, h2, hx⟩⟩
    · rintro ⟨x, rsp, hs, ⟨rfl, rfl⟩ | ⟨h1, h2, hx⟩⟩
      · exact .inl hs
      · exact .inr ⟨h1, h2, x, rsp, hs, hx⟩

/-- Settles O32: `CFG.CV` is the flag that a successful CONFIG turns on and that a reset alone turns off. -/
theorem configuredExactlyAfterSuccessfulConfig : Obligations.ConfiguredExactlyAfterSuccessfulConfig := by
  intro evs t h
  rw [flag_iff_answeredSince (flag := Regs.cfgCv) (sets := fun op rsp => op = 2#3 ∧ rsp = Response.nothing)
    (ends := fun _ _ => False) rfl (by simpa using runOf_cfgCv) h]
  simp only [answeredSince_never]
  constructor
  · rintro ⟨c, _, ⟨hop, rfl⟩, pre, post, heq, hpost, hrsp⟩
    exact ⟨pre, c, post, heq, hop, hpost, hrsp⟩
  · rintro ⟨pre, c, post, heq, hop, hpost, hrsp⟩
    exact ⟨c, _, ⟨hop, rfl⟩, pre, post, heq, hpost, hrsp⟩

/-- Settles O33: `OUT_VALID` is the flag that a PUSH answered SAMPLE turns on and that a successful CONFIG or a reset turns off; a
CONFIG answered NONE has begun a pass, which keeps the four output registers. -/
theorem outputValidExactlyAfterPush : Obligations.OutputValidExactlyAfterPush := by
  constructor
  · intro i s t hop h hout
    obtain rfl := exec_next h
    obtain ⟨fmt, bw, n, hbegun⟩ := runOf_config_answered_nothing hop (List.append_cancel_left hout |> List.singleton_inj.mp)
    simp [hbegun]
  · intro evs t h
    rw [flag_iff_answeredSince (flag := Regs.outValid) (sets := fun op rsp => op = 3#3 ∧ rsp.kind = .sample)
      (ends := fun op rsp => op = 2#3 ∧ rsp.kind = .none) rfl runOf_outValid h]
    constructor
    · rintro ⟨c, rsp, ⟨hop, hkind⟩, pre, post, heq, hpost, hrsp, hends⟩
      refine ⟨pre, c, post, rsp, heq, hop, hpost, hrsp, hkind, fun post₁ d post₂ hd hop' hnone => ?_⟩
      obtain ⟨q, hq, hqkind⟩ := Option.map_eq_some_iff.mp hnone
      exact hends post₁ d post₂ q hd hq ⟨hop', hqkind⟩
    · rintro ⟨pre, c, post, rsp, heq, hop, hpost, hrsp, hkind, hconfig⟩
      refine ⟨c, rsp, ⟨hop, hkind⟩, pre, post, heq, hpost, hrsp, ?_⟩
      rintro post₁ d post₂ q hd hq ⟨hop', hqkind⟩
      exact hconfig post₁ d post₂ hd hop' (by simp [hq, hqkind])

/-! The recorded error -/

/-- The components and the response say the same of the command `c`: that it was the one that raised the error
(60_exceptions.md R163). -/
structure RecordsError (r : Regs) (c : Command) (rsp : Response) : Prop where
  raised : r.err ≠ 0#8
  response : rsp = ⟨.error, BitVec.setWidth 32 r.err, 0#32, 0#32, 0#32⟩
  op : r.errOp = Command.op c
  arg : r.errArg = Command.arg c

/-- What the three error components say of a history: with `ERR` 0 nothing is recorded; otherwise an error has been answered since
the last reset, by a command that is no RESET; and every one answered since is the one recorded (10_state.md R33, R34). -/
structure ErrorRecorded (evs : List HostEvent) (r : Regs) (out : List Response) : Prop where
  empty : r.err = 0#8 → r.errOp = 0#3 ∧ r.errArg = 0#32
  answered : r.err ≠ 0#8 → ∃ c rsp, Command.op c ≠ 1#3 ∧
    AnsweredSince (fun _ _ => False) evs out c rsp ∧ RecordsError r c rsp
  recorded : ∀ c rsp, AnsweredSince (fun _ _ => False) evs out c rsp → rsp.kind = .error → RecordsError r c rsp

/-- After reset no error is recorded, and none has been answered since. -/
theorem ErrorRecorded.of_reset {evs : List HostEvent} {out : List Response}
    (noError : ∀ c rsp, AnsweredSince (fun _ _ => False) evs out c rsp → rsp.kind ≠ .error) :
    ErrorRecorded evs Regs.reset out where
  empty := by simp
  answered := by simp
  recorded c rsp h hkind := absurd hkind (noError c rsp h)

/-- No error's code is 0 (60_exceptions.md R161). -/
theorem ErrorCode.code_ne_zero (code : ErrorCode) : code.code ≠ 0#8 := by
  cases code <;> decide

/-- The command that raises an error is the one recorded. -/
theorem recordsError_raiseError (code : ErrorCode) (c : Command) (r : Regs) :
    RecordsError (raiseError code (Command.op c) (Command.arg c) r).1 c (Response.error code) :=
  ⟨code.code_ne_zero, rfl, rfl, rfl⟩

section
variable {evs : List HostEvent} {r r' : Regs} {out : List Response} {c : Command}

/-- A command that keeps the three error components and is answered without an error leaves the record as it was. -/
theorem ErrorRecorded.snoc_kept {rsp : Response} (h : ErrorRecorded evs r out) (hlen : out.length = commandCount evs)
    (hc : Command.op c ≠ 1#3) (noError : rsp.kind ≠ .error) (err : r'.err = r.err) (errOp : r'.errOp = r.errOp)
    (errArg : r'.errArg = r.errArg) : ErrorRecorded (evs ++ [.cmd c]) r' (out ++ [rsp]) := by
  have same {x q} (hx : RecordsError r x q) : RecordsError r' x q :=
    ⟨err ▸ hx.raised, err ▸ hx.response, errOp ▸ hx.op, errArg ▸ hx.arg⟩
  refine ⟨?empty, ?answered, ?recorded⟩
  case empty => rw [err, errOp, errArg]; exact h.empty
  case answered =>
    rw [err]
    intro he
    obtain ⟨x, q, hx, hsince, hrec⟩ := h.answered he
    exact ⟨x, q, hx, (answeredSince_snoc_cmd hlen).mpr (.inr ⟨hc, not_false, hsince⟩), same hrec⟩
  case recorded =>
    intro x q hsince hkind
    rcases (answeredSince_snoc_cmd hlen).mp hsince with ⟨_, rfl⟩ | ⟨_, _, hsince'⟩
    · exact absurd hkind noError
    · exact same (h.recorded x q hsince' hkind)

/-- A command that raises the first error is the one recorded. -/
theorem ErrorRecorded.snoc_raised (code : ErrorCode) (h : ErrorRecorded evs r out) (hlen : out.length = commandCount evs)
    (hc : Command.op c ≠ 1#3) (first : r.err = 0#8) :
    ErrorRecorded (evs ++ [.cmd c]) (raiseError code (Command.op c) (Command.arg c) r).1 (out ++ [Response.error code]) := by
  have hrec := recordsError_raiseError code c r
  refine ⟨fun he => absurd he hrec.raised, fun _ => ?answered, ?recorded⟩
  case answered => exact ⟨c, _, hc, (answeredSince_snoc_cmd hlen).mpr (.inl ⟨rfl, rfl⟩), hrec⟩
  case recorded =>
    intro x q hsince hkind
    rcases (answeredSince_snoc_cmd hlen).mp hsince with ⟨rfl, rfl⟩ | ⟨_, _, hsince'⟩
    · exact hrec
    · exact absurd first (h.recorded x q hsince' hkind).raised

end

/-- The record is right over every history. -/
theorem answersAll_errorRecorded {evs : List HostEvent} {t : State} (h : answersAll evs t) :
    ErrorRecorded evs t.regs t.rspOut := by
  induction h using answersAll_induction with
  | nil => exact .of_reset fun _ _ h => absurd h not_answeredSince_nil
  | rst evs u => exact .of_reset fun _ _ h => absurd h not_answeredSince_snoc_rst
  | cmd evs u c i hu hd ih =>
    have hlen := answersAll_length hu
    obtain ⟨hop, harg⟩ := decode_fields hd
    have heffect := runOf_effect i u.regs
    generalize runOf i u.regs = result at heffect
    cases heffect with
    | reset op =>
      refine .of_reset fun x q hsince => ?_
      rcases (answeredSince_snoc_cmd hlen).mp hsince with ⟨_, rfl⟩ | ⟨hc, _⟩
      · simp [Response.nothing]
      · exact absurd (hop ▸ op) hc
    | kept rsp op _ _ noError => exact ih.snoc_kept hlen (hop ▸ op) noError rfl rfl rfl
    | raised code op first => simpa only [hop, harg, raiseError_response] using ih.snoc_raised code hlen (hop ▸ op) first
    | passBegun fmt bw n op =>
      exact ih.snoc_kept hlen (by simp [← hop, op]) (by simp [Response.nothing]) rfl rfl rfl
    | sampled re im op =>
      exact ih.snoc_kept hlen (by simp [← hop, op]) (by simp [Response.sample]) (by simp) (by simp) (by simp)

/-- Settles O34: `ErrorRecorded` holds of every history, by induction over its events, and says all three parts. -/
theorem errorRegistersHoldTheErrorSinceReset : Obligations.ErrorRegistersHoldTheErrorSinceReset := by
  intro evs t h
  obtain ⟨empty, answered, recorded⟩ := answersAll_errorRecorded h
  simp only [answeredSince_never] at answered recorded
  refine ⟨fun he => ?_, fun pre c post rsp heq hpost hrsp hkind => ?_, empty⟩
  · obtain ⟨c, rsp, hc, ⟨pre, post, heq, hpost, hrsp⟩, hrec⟩ := answered he
    exact ⟨pre, c, post, heq, (noReset_cons _ _).mpr ⟨(isReset_cmd c).mpr hc, hpost⟩, hrec.response ▸ hrsp⟩
  · obtain ⟨raised, response, op, arg⟩ := recorded c rsp ⟨pre, post, heq, hpost, hrsp⟩ hkind
    exact ⟨raised, by rw [response], op, arg⟩

end Sys2Proof.Machine

/-! PROOFS. The host's bytes: the word 4 payload bytes make (20_memory.md R53). -/

namespace Sys2Proof.Machine

/-- Four bytes put together are their number in base `2 ^ 8`, the leftmost byte most significant. -/
theorem appendBytes_toNat (a b c d : Byte) :
    (a ++ b ++ c ++ d).toNat = d.toNat + c.toNat * 2 ^ 8 + b.toNat * 2 ^ 16 + a.toNat * 2 ^ 24 := by
  simp only [append_toNat]
  ring

theorem payloadWord_le_toNat (b0 b1 b2 b3 : Byte) :
    (payloadWord .le b0 b1 b2 b3).toNat = b0.toNat + b1.toNat * 2 ^ 8 + b2.toNat * 2 ^ 16 + b3.toNat * 2 ^ 24 :=
  appendBytes_toNat b3 b2 b1 b0

theorem payloadWord_be_toNat (b0 b1 b2 b3 : Byte) :
    (payloadWord .be b0 b1 b2 b3).toNat = b3.toNat + b2.toNat * 2 ^ 8 + b1.toNat * 2 ^ 16 + b0.toNat * 2 ^ 24 :=
  appendBytes_toNat b0 b1 b2 b3

/-- Settles O49: each byte order puts its four bytes together in its own direction, and the default is `LE` by definition. -/
theorem payloadWordOfBytes : Obligations.PayloadWordOfBytes := fun b0 b1 b2 b3 =>
  ⟨payloadWord_le_toNat b0 b1 b2 b3, payloadWord_be_toNat b0 b1 b2 b3, rfl⟩

end Sys2Proof.Machine

/-! PROOFS. The pseudo-instructions: their operand ranges and the payload words they make (30_encoding.md R87). -/

namespace Sys2Proof.Machine

/-! The words of the operands -/

/-- An integer of 16 bits comes back from its two's complement. -/
theorem toInt_ofInt16 {a : Int} (lo : -32768 ≤ a) (hi : a ≤ 32767) : (BitVec.ofInt 16 a).toInt = a := by
  rw [BitVec.toInt_ofInt]
  exact Int.bmod_eq_of_le (by omega) (by omega)

/-- The two halves of a DIRECT word are the two values in two's complement (41_direct.md R120). -/
theorem directDecode_directWord (re im : Int) :
    directDecode (directWord re im) = ((BitVec.ofInt 16 re).toInt, (BitVec.ofInt 16 im).toInt) := by
  unfold directDecode directWord
  rw [BitVec.extractLsb'_append_eq_of_add_le (by omega), BitVec.extractLsb'_append_eq_of_le (by omega)]
  simp

/-- In both formats the highest field ends below bit 32, so that a word of fields that fit is their sum with nothing cut off
(30_encoding.md R80 to R82). -/
theorem bfpWord_toNat {m e : Nat} {f : BfpFields} (format : (m, e) = (9, 5) ∨ (m, e) = (12, 6)) (hf : f.fits m e) :
    (bfpWord m e f).toNat =
      f.reS.toNat * 2 ^ (e + 2 * m - 1) + f.reMag * 2 ^ (e + m) + f.imS.toNat * 2 ^ (e + m - 1) + f.imMag * 2 ^ e + f.exp := by
  obtain ⟨exp, imMag, reMag⟩ := hf
  have reS := f.reS.toNat_lt
  have imS := f.imS.toNat_lt
  refine Nat.mod_eq_of_lt ?below
  rcases format with h | h <;> obtain ⟨rfl, rfl⟩ := Prod.mk.inj h
  case below.inl => norm_num at exp imMag reMag ⊢; omega
  case below.inr => norm_num at exp imMag reMag ⊢; omega

/-- A sign operand is the number of the sign bit it gives. -/
theorem toNat_decide_eq_one {b : Nat} (h : b < 2) : (decide (b = 1)).toNat = b := by
  interval_cases b <;> rfl

/-- The payload word of operands in their ranges has them as its fields. -/
theorem bfpWord_asmFields_toNat {m e rs rm is im x : Nat} (format : (m, e) = (9, 5) ∨ (m, e) = (12, 6))
    (h : asmFits m e rs rm is im x) :
    (bfpWord m e (asmFields rs rm is im x)).toNat =
      rs * 2 ^ (e + 2 * m - 1) + rm * 2 ^ (e + m) + is * 2 ^ (e + m - 1) + im * 2 ^ e + x := by
  obtain ⟨hrs, his, hrm, him, hx⟩ := h
  rw [bfpWord_toNat format ⟨hx, him, hrm⟩]
  simp only [asmFields, toNat_decide_eq_one hrs, toNat_decide_eq_one his]

/-! What is accepted: every pseudo-instruction is a PUSH of its word where its operands are in range, and refused elsewhere. -/

section
variable {p : Prop} [Decidable p] {arg : Word} {c : Command}

/-- A PUSH guarded by a range is refused exactly outside the range. -/
theorem guardedPush_ne_none : (if p then some (Command.mk 3#3 arg) else none) ≠ none ↔ p := by
  simp

/-- A PUSH guarded by a range, where it is not refused. -/
theorem guardedPush_eq_some (h : (if p then some (Command.mk 3#3 arg) else none) = some c) :
    p ∧ Command.op c = 3#3 ∧ Command.arg c = arg := by
  obtain ⟨hp, hc⟩ := Option.ite_none_right_eq_some.mp h
  obtain rfl := Option.some.inj hc
  exact ⟨hp, Command.op_mk _ _, Command.arg_mk _ _⟩

end

/-- Settles O53: the guard of each pseudo-instruction is its operand ranges; within them the DIRECT halves come back from two's
complement, and the block-floating-point word is the sum of its fields. -/
theorem pseudoInstructionsMakeTheirPush : Obligations.PseudoInstructionsMakeTheirPush := by
  refine ⟨?iqRange, ?b95Range, ?b126Range, ?iqWord, ?b95Word, ?b126Word⟩
  case iqRange =>
    intro re im
    exact guardedPush_ne_none.trans and_assoc.symm
  case b95Range =>
    intro rs rm is im e
    exact guardedPush_ne_none.trans (by omega)
  case b126Range =>
    intro rs rm is im e
    exact guardedPush_ne_none.trans (by omega)
  case iqWord =>
    intro re im w h
    obtain ⟨⟨reLo, reHi, imLo, imHi⟩, op, arg⟩ := guardedPush_eq_some h
    exact ⟨op, by rw [arg, directDecode_directWord, toInt_ofInt16 reLo reHi, toInt_ofInt16 imLo imHi]⟩
  case b95Word =>
    intro rs rm is im e w h
    obtain ⟨fits, op, arg⟩ := guardedPush_eq_some h
    exact ⟨op, arg ▸ bfpWord_asmFields_toNat (.inl rfl) fits⟩
  case b126Word =>
    intro rs rm is im e w h
    obtain ⟨fits, op, arg⟩ := guardedPush_eq_some h
    exact ⟨op, arg ▸ bfpWord_asmFields_toNat (.inr rfl) fits⟩

end Sys2Proof.Machine

/-! PROOFS. The control commands, each by its rule (40_control.md R101 to R103, R105 to R108): which command a word of each `op` is, what
that command does to the architectural state, and the machine state that comes of it. -/

namespace Sys2Proof

/-! The command of a word (30_encoding.md R88) -/

section
variable (fmt : BitVec 4) (arg : Word)

theorem decode_nop : decode fmt (Command.mk 0#3 arg) = .ok (.nop arg) := by simp [decode_mk]

theorem decode_reset : decode fmt (Command.mk 1#3 arg) = .ok (.reset arg) := by simp [decode_mk]

theorem decode_config (rsvHi : BitVec 16) (bw : BitVec 8) (rsvLo f : BitVec 4) :
    decode fmt (Command.mk 2#3 (configArg rsvHi bw rsvLo f)) = .ok (.config rsvHi bw rsvLo f) := by simp [decode_mk]

theorem decode_read (rsv : BitVec 24) (n : BitVec 8) :
    decode fmt (Command.mk 4#3 (readArg rsv n)) = .ok (.read rsv n) := by simp [decode_mk]

end

/-! The formats and the bandwidths of CONFIG (30_encoding.md R74, R75) -/

/-- The format codes from 3 up name no format (30_encoding.md R75). -/
theorem Format.ofCode_eq_none_iff (fmt : BitVec 4) : Format.ofCode fmt = none ↔ 3 ≤ fmt.toNat := by
  revert fmt; decide

/-- A format code below 3 names a format (30_encoding.md R75). -/
theorem Format.exists_ofCode {fmt : BitVec 4} (h : fmt.toNat < 3) : ∃ f, Format.ofCode fmt = some f :=
  Option.ne_none_iff_exists'.mp fun hnone => by have := (Format.ofCode_eq_none_iff fmt).mp hnone; omega

/-- The bandwidths with no subcarrier count (10_state.md R27). -/
theorem nsubOf_eq_none {bw : BitVec 8} (h : bw.toNat ∉ [20, 40, 80, 160]) : nsubOf bw = none := by
  cases hn : nsubOf bw with
  | none => rfl
  | some n => rcases nsubOf_eq_some hn with ⟨rfl, _⟩ | ⟨rfl, _⟩ | ⟨rfl, _⟩ | ⟨rfl, _⟩ <;> simp at h

/-- The table of subcarrier counts, read with numbers (10_state.md R27). -/
theorem nsubOf_of_mem {bw : BitVec 8} {n : Nat} (h : (bw.toNat, n) ∈ [(20, 64), (40, 128), (80, 256), (160, 512)]) :
    nsubOf bw = some (BitVec.ofNat 16 n) := by
  simp only [List.mem_cons, List.not_mem_nil, or_false, Prod.mk.injEq] at h
  rcases h with ⟨hbw, rfl⟩ | ⟨hbw, rfl⟩ | ⟨hbw, rfl⟩ | ⟨hbw, rfl⟩ <;> simp [nsubOf, ← BitVec.toNat_inj, hbw]

/-- No record is longer than 512 subcarriers (10_state.md R27). -/
theorem nsubOf_le {bw : BitVec 8} {n : BitVec 16} (h : nsubOf bw = some n) : n.toNat ≤ 512 := by
  rcases nsubOf_eq_some h with ⟨_, rfl⟩ | ⟨_, rfl⟩ | ⟨_, rfl⟩ | ⟨_, rfl⟩ <;> decide

end Sys2Proof

namespace Sys2Proof.Machine

/-! What a word of a PUSH or of a reserved operation runs -/

/-- The word of each reserved operation is its command, and raises ERR_CMD with its whole `op` (40_control.md R108). -/
theorem reserved_forms (fmt : BitVec 4) (arg : Word) {i : Instr} {op : BitVec 3}
    (h : (i, op) ∈ [(.reserved5 arg, 5#3), (.reserved67 0#1 arg, 6#3), (.reserved67 1#1 arg, 7#3)]) :
    decode fmt (Command.mk op arg) = .ok i ∧ runOf i = unlessError (raiseError .cmd op arg) := by
  simp only [List.mem_cons, List.not_mem_nil, or_false, Prod.mk.injEq] at h
  rcases h with ⟨rfl, rfl⟩ | ⟨rfl, rfl⟩ | ⟨rfl, rfl⟩ <;> exact ⟨by simp [decode_mk], rfl⟩

/-- A PUSH word under a format's code is a PUSH with that format's output (30_encoding.md R83, 40_control.md R106). -/
theorem decode_push (f : Format) (w : Word) :
    ∃ i, decode f.code (Command.mk 3#3 w) = .ok i ∧ runOf i = unlessError (push (outputsOf f w) w) := by
  cases f with
  | direct => exact ⟨.pushDirect w, by simp [decode_mk], rfl⟩
  | bfp95 => exact ⟨.pushBfp95 w, by simp [decode_mk], rfl⟩
  | bfp126 => exact ⟨.pushBfp126 w, by simp [decode_mk], rfl⟩

/-- The PUSH forms are one operation on three outputs (40_control.md R106). -/
theorem runOf_push {i : Instr} {w : Word} (h : i = .pushDirect w ∨ i = .pushBfp95 w ∨ i = .pushBfp126 w) :
    ∃ f, runOf i = unlessError (push (outputsOf f w) w) := by
  rcases h with rfl | rfl | rfl
  · exact ⟨.direct, rfl⟩
  · exact ⟨.bfp95, rfl⟩
  · exact ⟨.bfp126, rfl⟩

/-! The machine state after a command, by what the command does to the architectural state -/

section
variable {i : Instr} {s : State}

/-- A step runs the command that its word decodes to (40_control.md R100). -/
theorem step_eq_exec {w : Command} {rest : List HostEvent} (h : s.cmdIn = .cmd w :: rest) (hd : decode s.regs.cfgFmt w = .ok i) :
    step s = exec i { s with cmdIn := rest } :=
  (step_decoded h hd).trans (exec_eq_answer i { s with cmdIn := rest }).symm

/-- A command that keeps every component only answers. -/
theorem exec_of_kept {rsp : Response} (h : runOf i s.regs = (s.regs, rsp)) : exec i s = .next (s.afterResponse rsp) := by
  rw [exec_eq_answer, answer_eq, h]
  rfl

/-- A command that raises an error (60_exceptions.md R163). -/
theorem exec_of_raised {code : ErrorCode} {op : BitVec 3} {arg : Word} (h : runOf i s.regs = raiseError code op arg s.regs) :
    exec i s = .next (s.afterError code.code op arg) := by
  rw [exec_eq_answer, answer_eq, h]
  rfl

/-- A command that begins a pass (40_control.md R103). -/
theorem exec_of_passBegun {fmt : BitVec 4} {bw : BitVec 8} {n : BitVec 16}
    (h : runOf i s.regs = (beginPass fmt bw n s.regs, Response.nothing)) : exec i s = .next (s.afterConfig fmt bw n) := by
  rw [exec_eq_answer, answer_eq, h]
  rfl

/-- A PUSH that gives an output (40_control.md R106, R107). -/
theorem exec_of_pushed {o : Word × Word} {w : Word} (h : runOf i = unlessError (push o w)) (noError : s.regs.err = 0#8)
    (configured : s.regs.cfgCv = true) : exec i s = .next (s.afterPush o.1 o.2) := by
  rw [exec_eq_answer, h, answer_push o w noError configured]

/-- A PUSH before a CONFIG (40_control.md R106). -/
theorem exec_of_unconfiguredPush {o : Word × Word} {w : Word} (h : runOf i = unlessError (push o w)) (noError : s.regs.err = 0#8)
    (unconfigured : s.regs.cfgCv = false) : exec i s = .next (s.afterError 4#8 3#3 w) := by
  refine exec_of_raised (code := .noCfg) ?_
  rw [h, unlessError_of_noError _ noError, push, if_pos unconfigured]

end

/-! NOP and the reserved operations -/

/-- Settles O13: NOP keeps every component. -/
theorem nopOnlyAnswers : Obligations.NopOnlyAnswers := fun arg s =>
  ⟨decode_nop s.regs.cfgFmt arg, exec_of_kept rfl⟩

/-- Settles O31: a reserved operation raises ERR_CMD where `unlessError` lets it run. -/
theorem reservedOperationsRaiseErrCmd : Obligations.ReservedOperationsRaiseErrCmd := by
  intro arg s i op h
  obtain ⟨decoded, run⟩ := reserved_forms s.regs.cfgFmt arg h
  refine ⟨decoded, fun he => exec_of_raised (code := .cmd) ?raised, fun he => exec_of_kept (rsp := Response.ignored) ?ignored⟩
  case raised => rw [run, unlessError_of_noError _ he]
  case ignored => rw [run, unlessError_of_error _ he]

/-! RESET -/

/-- From the ERROR state only RESET leads out: every other effect keeps `ERR` or needs it to be 0 (60_exceptions.md R166). -/
theorem op_of_runOf_leaves_error {i : Instr} {r : Regs} (he : r.err ≠ 0#8) (left : (runOf i r).1.err = 0#8) : i.op = 1#3 := by
  have h := runOf_effect i r
  generalize runOf i r = result at h left
  cases h with
  | reset op => exact op
  | kept rsp => exact absurd left he
  | raised code _ first => exact absurd first he
  | passBegun fmt bw n => exact absurd left he
  | sampled re im => exact absurd (by simpa using left) he

/-- Settles O14: both reset sources give the reset values, and no effect but RESET's leaves the ERROR state. -/
theorem resetCommandResetsEveryComponent : Obligations.ResetCommandResetsEveryComponent := by
  intro arg s
  refine ⟨decode_reset s.regs.cfgFmt arg, ?command, ?status, ?input, ?onlyReset⟩
  case command => rw [exec_eq_answer, answer_eq]; rfl
  case status => rfl
  case input =>
    intro rest h
    exact ⟨_, step_rst h, rfl⟩
  case onlyReset =>
    intro i t he h left
    obtain rfl := exec_next h
    exact op_of_runOf_leaves_error he left

/-! CONFIG: one equation per outcome of `configure`, in the order of its checks (60_exceptions.md R164). -/

section
variable {rsvHi : BitVec 16} {bw : BitVec 8} {rsvLo fmt : BitVec 4} {r : Regs}

theorem configure_of_reserved (h : rsvHi ≠ 0#16 ∨ rsvLo ≠ 0#4) :
    configure rsvHi bw rsvLo fmt r = raiseError .cmd 2#3 (configArg rsvHi bw rsvLo fmt) r := if_pos h

theorem configure_of_partial (hsc : r.scIdx ≠ 0#16) :
    configure 0#16 bw 0#4 fmt r = raiseError .partialRecord 2#3 (configArg 0#16 bw 0#4 fmt) r := by
  simp [configure, hsc]

theorem configure_of_device (hsc : r.scIdx = 0#16) (hf : Format.ofCode fmt = none) :
    configure 0#16 bw 0#4 fmt r = raiseError .device 2#3 (configArg 0#16 bw 0#4 fmt) r := by
  simp [configure, hsc, hf]

theorem configure_of_bandwidth {f : Format} (hsc : r.scIdx = 0#16) (hf : Format.ofCode fmt = some f) (hn : nsubOf bw = none) :
    configure 0#16 bw 0#4 fmt r = raiseError .bw 2#3 (configArg 0#16 bw 0#4 fmt) r := by
  simp [configure, hsc, hf, hn]

theorem configure_of_legal {f : Format} {n : BitVec 16} (hsc : r.scIdx = 0#16) (hf : Format.ofCode fmt = some f)
    (hn : nsubOf bw = some n) : configure 0#16 bw 0#4 fmt r = (beginPass fmt bw n r, Response.nothing) := by
  simp [configure, hsc, hf, hn]

end

/-- Settles O16: one equation of `configure` for each of the five outcomes. -/
theorem configFollowsItsRule : Obligations.ConfigFollowsItsRule := by
  intro rsvHi bw rsvLo fmt s he
  have run : runOf (.config rsvHi bw rsvLo fmt) s.regs = configure rsvHi bw rsvLo fmt s.regs := unlessError_of_noError _ he
  refine ⟨decode_config s.regs.cfgFmt rsvHi bw rsvLo fmt, ?reserved, ?partialRecord, ?device, ?bandwidth, ?legal⟩
  case reserved =>
    intro h
    exact exec_of_raised (code := .cmd) (run.trans (configure_of_reserved h))
  case partialRecord =>
    rintro rfl rfl hsc
    exact exec_of_raised (code := .partialRecord) (run.trans (configure_of_partial hsc))
  case device =>
    rintro rfl rfl hsc hfmt
    exact exec_of_raised (code := .device) (run.trans (configure_of_device hsc ((Format.ofCode_eq_none_iff fmt).mpr hfmt)))
  case bandwidth =>
    rintro rfl rfl hsc hfmt hbw
    obtain ⟨f, hf⟩ := Format.exists_ofCode hfmt
    exact exec_of_raised (code := .bw) (run.trans (configure_of_bandwidth hsc hf (nsubOf_eq_none hbw)))
  case legal =>
    rintro rfl rfl hsc hfmt n hbw
    obtain ⟨f, hf⟩ := Format.exists_ofCode hfmt
    exact exec_of_passBegun (run.trans (configure_of_legal hsc hf (nsubOf_of_mem hbw)))

/-! READ -/

/-- A legal READ answers its value in any state (40_control.md R105). -/
theorem readRegister_of_legal {rsv : BitVec 24} {n : BitVec 8} (r : Regs) (hrsv : rsv = 0#24) (hn : n.toNat ≤ 0x0A) :
    ∃ v, regRead r n = some v ∧ readRegister rsv n r = (r, Response.data v) := by
  have notIllegal : ¬ (rsv ≠ 0#24 ∨ 0x0A < n.toNat) := not_or.mpr ⟨not_not_intro hrsv, Nat.not_lt.mpr hn⟩
  rcases readRegister_cases rsv n r with ⟨v, _, _, hv, heq⟩ | ⟨illegal, _⟩ | ⟨illegal, _⟩
  · exact ⟨v, hv, heq⟩
  · exact absurd illegal notIllegal
  · exact absurd illegal notIllegal

/-- An illegal READ outside the ERROR state raises ERR_CMD (40_control.md R105). -/
theorem readRegister_of_illegal {rsv : BitVec 24} {n : BitVec 8} {r : Regs} (he : r.err = 0#8)
    (illegal : rsv ≠ 0#24 ∨ 0x0A < n.toNat) : readRegister rsv n r = raiseError .cmd 4#3 (readArg rsv n) r := by
  rcases readRegister_cases rsv n r with ⟨v, hrsv, hn, _⟩ | ⟨_, herr, _⟩ | ⟨_, _, heq⟩
  · rcases illegal with h | h
    · exact absurd hrsv h
    · omega
  · exact absurd he herr
  · exact heq

/-- OUT_VALID is bit 9 of STATUS (10_state.md R23). -/
theorem status_outValid (r : Regs) : r.status.getLsbD 9 = r.outValid := by
  simp only [Regs.status, BitVec.getLsbD_setWidth, BitVec.getLsbD_append]
  simp

/-- No output stands in the output registers that READ OUT_RE and STATUS show: OUT_RE and OUT_VALID are 0. -/
def Regs.noOutput (r : Regs) : Prop := r.outRe = 0#32 ∧ r.outValid = false

/-- No command but PUSH gives an output (10_state.md R30, R32). -/
theorem runOf_noOutput {i : Instr} {r : Regs} (op : i.op ≠ 3#3) (before : r.noOutput) : (runOf i r).1.noOutput := by
  have h := runOf_effect i r
  generalize runOf i r = result at h
  cases h with
  | reset => exact ⟨rfl, rfl⟩
  | kept rsp => exact before
  | raised code => exact before
  | passBegun fmt bw n => exact ⟨before.1, rfl⟩
  | sampled re im isPush => exact absurd isPush op

/-- In a history without PUSH there is no output. -/
theorem answersAll_noOutput {evs : List HostEvent} {t : State} (h : answersAll evs t)
    (noPush : ∀ c, .cmd c ∈ evs → Command.op c ≠ 3#3) : t.regs.noOutput := by
  induction h using answersAll_induction with
  | nil => exact ⟨rfl, rfl⟩
  | rst evs u => exact ⟨rfl, rfl⟩
  | cmd evs u c i hu hd ih =>
    have op : i.op ≠ 3#3 := (decode_fields hd).1 ▸ noPush c (by simp)
    exact runOf_noOutput op (ih fun d hmem => noPush d (List.mem_append_left _ hmem))

/-- Settles O17: the two outcomes of `readRegister`, and an induction over the histories without PUSH. -/
theorem readFollowsItsRule : Obligations.ReadFollowsItsRule := by
  refine ⟨fun rsv n s => ⟨decode_read s.regs.cfgFmt rsv n, ?legal, ?illegal⟩, ?history⟩
  case legal =>
    intro hrsv hn
    obtain ⟨v, hv, heq⟩ := readRegister_of_legal s.regs hrsv hn
    exact ⟨v, hv, exec_of_kept heq⟩
  case illegal =>
    intro he illegal
    exact exec_of_raised (code := .cmd) (readRegister_of_illegal he illegal)
  case history =>
    intro evs t h noPush
    obtain ⟨outRe, outValid⟩ := answersAll_noOutput h noPush
    exact ⟨by rw [regRead_outRe, outRe], by rw [status_outValid, outValid]⟩

/-! PUSH -/

/-- Settles O24: the word is the PUSH of the format that `CFG.FMT` selects, whose output words are the `F32` of its two values. -/
theorem stepPushUsesTheConfiguredFormat : Obligations.StepPushUsesTheConfiguredFormat := by
  intro f w s rest he hfmt hin
  obtain ⟨i, decoded, run⟩ := decode_push f w
  have stepped : step s = exec i { s with cmdIn := rest } := step_eq_exec hin (hfmt ▸ decoded)
  refine ⟨fun unconfigured => ?unconfigured, fun configured => ?configured⟩
  case unconfigured => exact stepped.trans (exec_of_unconfiguredPush run he unconfigured)
  case configured =>
    have pushed := stepped.trans (exec_of_pushed run he configured)
    cases f with
    | direct => exact pushed
    | bfp95 => exact pushed
    | bfp126 => exact pushed

/-- Settles O25: the position after a PUSH is `Advance`'s, whose sums do not wrap inside a record. -/
theorem pushAdvancesThePosition : Obligations.PushAdvancesThePosition := by
  intro i w s t form he configured inside h
  obtain ⟨f, run⟩ := runOf_push form
  obtain rfl := Host.Outcome.next.inj ((exec_of_pushed run he configured).symm.trans h)
  have below : s.regs.scIdx.toNat < s.regs.nsub.toNat := inside
  refine ⟨fun last => ?last, fun notLast => ?notLast, fun inv => ?bound⟩
  case last => simp [State.afterPush, last]
  case notLast =>
    have noWrap : (s.regs.scIdx + 1#16).toNat = s.regs.scIdx.toNat + 1 := by bv_omega
    simp [State.afterPush, notLast, noWrap]
  case bound =>
    obtain ⟨_, legal, _⟩ := inv
    obtain ⟨_, _, count, _⟩ := legal configured
    have := nsubOf_le count
    omega

end Sys2Proof.Machine

/-! PROOFS. PUSH.DIRECT: the two halves of the payload word as numbers in two's complement (41_direct.md R120). -/

namespace Sys2Proof.Machine

/-- The integer that a 16-bit number stands for in two's complement. -/
def signed16 (n : Nat) : Int := if n < 2 ^ 15 then (n : Int) else (n : Int) - 2 ^ 16

/-- A word of 16 bits, read as a signed integer, has its sign at bit 15. -/
theorem toInt_eq_signed16 (h : BitVec 16) : h.toInt = signed16 h.toNat := by
  have sign : 2 * h.toNat < 2 ^ 16 ↔ h.toNat < 2 ^ 15 := by omega
  simp only [BitVec.toInt_eq_toNat_cond, signed16, sign]
  rfl

/-- The real value is the payload word modulo `2^16`, the imaginary value its quotient, both signed (41_direct.md R120). -/
theorem directDecode_eq_signed16 (w : Word) :
    directDecode w = (signed16 (w.toNat % 2 ^ 16), signed16 (w.toNat / 2 ^ 16)) := by
  have low : (BitVec.extractLsb' 0 16 w).toNat = w.toNat % 2 ^ 16 := by simp [BitVec.extractLsb'_toNat]
  have high : (BitVec.extractLsb' 16 16 w).toNat = w.toNat / 2 ^ 16 := by
    rw [BitVec.extractLsb'_toNat, Nat.shiftRight_eq_div_pow]
    exact Nat.mod_eq_of_lt (Nat.div_lt_of_lt_mul w.isLt)
  rw [directDecode, toInt_eq_signed16, toInt_eq_signed16, low, high]

/-- The output words of PUSH.DIRECT are the conversions of its two signed halves (41_direct.md R120). -/
theorem outputsOf_direct (w : Word) :
    outputsOf .direct w = (f32 (signed16 (w.toNat % 2 ^ 16)), f32 (signed16 (w.toNat / 2 ^ 16))) := by
  rw [outputsOf, directOutputs, directDecode_eq_signed16]

/-- A PUSH word under `CFG.FMT` 0 is PUSH.DIRECT (30_encoding.md R83). -/
theorem decode_pushDirect (w : Word) : decode 0#4 (Command.mk 3#3 w) = .ok (.pushDirect w) := by
  rw [decode_mk]
  exact decodePush_code .direct w

/-- Settles O21: the word decodes to PUSH.DIRECT under `CFG.FMT` 0, which outputs the `F32` of the word's two signed halves. -/
theorem pushDirectResult : Obligations.PushDirectResult := by
  intro w s noError configured direct
  refine ⟨?decoded, ?pushed⟩
  case decoded => exact direct ▸ decode_pushDirect w
  case pushed =>
    have pushed : exec (.pushDirect w) s = .next (s.afterPush (outputsOf .direct w).1 (outputsOf .direct w).2) :=
      exec_of_pushed rfl noError configured
    rw [outputsOf_direct] at pushed
    exact pushed

end Sys2Proof.Machine

/-! PROOFS. PUSH.BFP95 and PUSH.BFP126: the two components of a block-floating-point word by its fields as numbers (42_bfp.md R135,
R136), and the bits above the fields (R137). -/

namespace Sys2Proof.Machine

/-! The components by the fields -/

/-- The component of a sign, a magnitude and an exponent field: sign-magnitude, times two to the exponent plus 10 (42_bfp.md R131 to
R133). -/
def bfpComponent (sign mag exp : Nat) : Int := (if sign = 1 then -(mag : Int) else mag) * 2 ^ (exp + 10)

/-- Bit `k` of a word, as the parity of the quotient of its number by `2 ^ k`. -/
theorem getLsbD_eq_decide_div (w : Word) (k : Nat) : w.getLsbD k = decide (w.toNat / 2 ^ k % 2 = 1) := by
  rw [← BitVec.testBit_toNat, Nat.testBit_eq_decide_div_mod_eq]

/-- A signed mantissa, scaled, is the component of its sign bit, its magnitude and its exponent (42_bfp.md R131 to R133). -/
theorem signedMantissa_mul_scale (w : Word) (k mag exp : Nat) :
    signedMantissa (w.getLsbD k) mag * 2 ^ bfpScale exp = bfpComponent (w.toNat / 2 ^ k % 2) mag exp := by
  simp only [getLsbD_eq_decide_div, signedMantissa, decide_eq_true_eq]
  rfl

/-- Both components of a word, for every format `(m, e)`, by quotients and remainders of the word (42_bfp.md R130 to R133). -/
theorem bfpDecode_eq_bfpComponent (m e : Nat) (w : Word) :
    bfpDecode m e w =
      (bfpComponent (w.toNat / 2 ^ (e + 2 * m - 1) % 2) (w.toNat / 2 ^ (e + m) % 2 ^ (m - 1)) (w.toNat % 2 ^ e),
       bfpComponent (w.toNat / 2 ^ (e + m - 1) % 2) (w.toNat / 2 ^ e % 2 ^ (m - 1)) (w.toNat % 2 ^ e)) := by
  rw [bfpDecode, bfpFields_reS, bfpFields_imS, bfpFields_reMag, bfpFields_imMag, bfpFields_exp, signedMantissa_mul_scale,
    signedMantissa_mul_scale]

/-! What a PUSH of the two formats does -/

/-- A PUSH word is decoded by `CFG.FMT` alone (30_encoding.md R83). -/
theorem decode_eq_decodePush (fmt : BitVec 4) (w : Word) : decode fmt (Command.mk 3#3 w) = decodePush fmt w := by
  simp [decode_mk]

/-- A block-floating-point PUSH outside the ERROR state in a configured block outputs the conversions of its two components
(42_bfp.md R133, 40_control.md R106). -/
theorem exec_pushBfp {i : Instr} {m e : Nat} {w : Word} {s : State}
    (run : runOf i = unlessError (push (bfpOutputs false m e w) w)) (noError : s.regs.err = 0#8) (configured : s.regs.cfgCv = true) :
    exec i s = .next (s.afterPush (f32 (bfpDecode m e w).1) (f32 (bfpDecode m e w).2)) :=
  exec_of_pushed run noError configured

/-- Settles O22: the word decodes to PUSH.BFP95 under `CFG.FMT` 1, which outputs the `F32` of its components in the format (9, 5). -/
theorem pushBfp95Result : Obligations.PushBfp95Result := by
  intro w s noError configured format
  refine ⟨?decoded, ?pushed⟩
  case decoded => exact format ▸ (decode_eq_decodePush 1#4 w).trans (decodePush_code .bfp95 w)
  case pushed =>
    have pushed := exec_pushBfp (i := .pushBfp95 w) (m := 9) (e := 5) rfl noError configured
    rw [bfpDecode_eq_bfpComponent] at pushed
    exact pushed

/-- Settles O23: the word decodes to PUSH.BFP126 under `CFG.FMT` 2, which outputs the `F32` of its components in the format
(12, 6). -/
theorem pushBfp126Result : Obligations.PushBfp126Result := by
  intro w s noError configured format
  refine ⟨?decoded, ?pushed⟩
  case decoded => exact format ▸ (decode_eq_decodePush 2#4 w).trans (decodePush_code .bfp126 w)
  case pushed =>
    have pushed := exec_pushBfp (i := .pushBfp126 w) (m := 12) (e := 6) rfl noError configured
    rw [bfpDecode_eq_bfpComponent] at pushed
    exact pushed

/-! The bits that are not read -/

/-- Words that are equal modulo `2 ^ n` have the same bits below `n`. -/
theorem getLsbD_eq_of_mod_eq {w w' : Word} {n k : Nat} (same : w.toNat % 2 ^ n = w'.toNat % 2 ^ n) (below : k < n) :
    w.getLsbD k = w'.getLsbD k := by
  have bit : (w.toNat % 2 ^ n).testBit k = (w'.toNat % 2 ^ n).testBit k := by rw [same]
  simpa only [Nat.testBit_mod_two_pow, below, decide_true, Bool.true_and, BitVec.testBit_toNat] using bit

/-- Words that are equal modulo `2 ^ n` have the same fields below `n`. -/
theorem extractLsb'_eq_of_mod_eq {w w' : Word} {n start len : Nat} (same : w.toNat % 2 ^ n = w'.toNat % 2 ^ n)
    (below : start + len ≤ n) : BitVec.extractLsb' start len w = BitVec.extractLsb' start len w' := by
  refine BitVec.eq_of_getLsbD_eq fun i hi => ?_
  rw [BitVec.getLsbD_extractLsb', BitVec.getLsbD_extractLsb', getLsbD_eq_of_mod_eq same (by omega)]

/-- The fields of a word lie below bit `2m + e`: the bits from there up are not read (42_bfp.md R137). -/
theorem bfpFields_eq_of_mod_eq {m e : Nat} {w w' : Word} (hm : 0 < m)
    (same : w.toNat % 2 ^ (e + 2 * m) = w'.toNat % 2 ^ (e + 2 * m)) : bfpFields m e w = bfpFields m e w' := by
  have exp := extractLsb'_eq_of_mod_eq (start := 0) (len := e) same (by omega)
  have imMag := extractLsb'_eq_of_mod_eq (start := e) (len := m - 1) same (by omega)
  have imS := getLsbD_eq_of_mod_eq (k := e + m - 1) same (by omega)
  have reMag := extractLsb'_eq_of_mod_eq (start := e + m) (len := m - 1) same (by omega)
  have reS := getLsbD_eq_of_mod_eq (k := e + 2 * m - 1) same (by omega)
  simp only [bfpFields, exp, imMag, imS, reMag, reS]

/-- The components are made of the fields alone, so that the bits above them change nothing (42_bfp.md R137). -/
theorem bfpDecode_eq_of_mod_eq {m e : Nat} {w w' : Word} (hm : 0 < m)
    (same : w.toNat % 2 ^ (e + 2 * m) = w'.toNat % 2 ^ (e + 2 * m)) : bfpDecode m e w = bfpDecode m e w' := by
  rw [bfpDecode, bfpDecode, bfpFields_eq_of_mod_eq hm same]

section
variable {i i' : Instr} {m e : Nat} {w w' : Word} {s : State}

/-- A block-floating-point PUSH outside the ERROR state in a configured block raises no error, whatever its word (42_bfp.md R137). -/
theorem exec_pushBfp_noError (run : runOf i = unlessError (push (bfpOutputs false m e w) w)) (noError : s.regs.err = 0#8)
    (configured : s.regs.cfgCv = true) : ∃ t, exec i s = .next t ∧ t.regs.err = 0#8 :=
  ⟨_, exec_pushBfp run noError configured, noError⟩

/-- The bits from `2m + e` up do not change what a block-floating-point PUSH does (42_bfp.md R137). -/
theorem exec_pushBfp_eq_of_mod_eq (run : runOf i = unlessError (push (bfpOutputs false m e w) w))
    (run' : runOf i' = unlessError (push (bfpOutputs false m e w') w')) (noError : s.regs.err = 0#8) (configured : s.regs.cfgCv = true)
    (hm : 0 < m) (same : w.toNat % 2 ^ (e + 2 * m) = w'.toNat % 2 ^ (e + 2 * m)) : exec i s = exec i' s := by
  rw [exec_pushBfp run noError configured, exec_pushBfp run' noError configured, bfpDecode_eq_of_mod_eq hm same]

end

/-- Settles O43: a block-floating-point PUSH in a configured block gives an output, made of the fields alone, which lie below bit 23 in
the format (9, 5) and below bit 30 in the format (12, 6). -/
theorem unusedBitsChangeNothing : Obligations.UnusedBitsChangeNothing := by
  intro w w' s noError configured
  refine ⟨fun _ => ⟨?bfp95NoError, ?bfp95Unused⟩, fun _ => ⟨?bfp126NoError, ?bfp126Unused⟩⟩
  case bfp95NoError => exact exec_pushBfp_noError (m := 9) (e := 5) rfl noError configured
  case bfp95Unused => exact exec_pushBfp_eq_of_mod_eq (m := 9) (e := 5) rfl rfl noError configured (by decide)
  case bfp126NoError => exact exec_pushBfp_noError (m := 12) (e := 6) rfl noError configured
  case bfp126Unused => exact exec_pushBfp_eq_of_mod_eq (m := 12) (e := 6) rfl rfl noError configured (by decide)

end Sys2Proof.Machine

/-! PROOFS. The errors (60_exceptions.md R162 to R166): which error a command raises outside the ERROR state and what it leaves
unchanged, what each command does in ERROR state, and what leads out of it. -/

namespace Sys2Proof

/-! The causes of the errors, read off the fields of a command (60_exceptions.md R161) -/

/-- A CONFIG carries ERR_CMD exactly with a reserved bit set (30_encoding.md R74). -/
theorem noReserved_config_iff {rsvHi : BitVec 16} {bw : BitVec 8} {rsvLo fmt : BitVec 4} :
    (Instr.config rsvHi bw rsvLo fmt).noReserved = false ↔ rsvHi ≠ 0#16 ∨ rsvLo ≠ 0#4 := by
  simp [Instr.noReserved, Decidable.imp_iff_not_or]

/-- A READ carries ERR_CMD exactly with a reserved bit set or a number above 0x0A (30_encoding.md R76). -/
theorem noReserved_read_iff {rsv : BitVec 24} {n : BitVec 8} :
    (Instr.read rsv n).noReserved = false ↔ rsv ≠ 0#24 ∨ 0x0A < n.toNat := by
  simp [Instr.noReserved, Decidable.imp_iff_not_or, BitVec.lt_def]

/-- The bandwidths with no subcarrier count are those that are none of the four (10_state.md R27). -/
theorem nsubOf_eq_none_iff (bw : BitVec 8) : nsubOf bw = none ↔ bw.toNat ∉ [20, 40, 80, 160] := by
  refine ⟨fun hnone hmem => ?_, nsubOf_eq_none⟩
  obtain ⟨n, hn⟩ : ∃ n, (bw.toNat, n) ∈ [(20, 64), (40, 128), (80, 256), (160, 512)] := by
    simpa [exists_or] using hmem
  simp [nsubOf_of_mem hn] at hnone

/-- The format code is the lowest digit of a CONFIG's `arg` (30_encoding.md R74). -/
theorem configArg_fmt (rsvHi : BitVec 16) (bw : BitVec 8) (rsvLo fmt : BitVec 4) :
    (configArg rsvHi bw rsvLo fmt).toNat % 2 ^ 4 = fmt.toNat := by
  simp only [configArg, append_toNat]
  omega

/-- The bandwidth is the second byte of a CONFIG's `arg` (30_encoding.md R74). -/
theorem configArg_bw (rsvHi : BitVec 16) (bw : BitVec 8) (rsvLo fmt : BitVec 4) :
    (configArg rsvHi bw rsvLo fmt).toNat / 2 ^ 8 % 2 ^ 8 = bw.toNat := by
  simp only [configArg, append_toNat]
  omega

end Sys2Proof

namespace Sys2Proof.Machine

/-! `ERR` after each operation that can raise an error, outside the ERROR state (60_exceptions.md R164) -/

section
variable {r : Regs}

/-- `ERR` after CONFIG: the first of its four causes, in the order of its checks. -/
theorem configure_err (rsvHi : BitVec 16) (bw : BitVec 8) (rsvLo fmt : BitVec 4) :
    (configure rsvHi bw rsvLo fmt r).1.err =
      if rsvHi ≠ 0#16 ∨ rsvLo ≠ 0#4 then 1#8
      else if r.scIdx ≠ 0#16 then 5#8
      else if 3 ≤ fmt.toNat then 2#8
      else if bw.toNat ∉ [20, 40, 80, 160] then 3#8
      else r.err := by
  simp only [← Format.ofCode_eq_none_iff, ← nsubOf_eq_none_iff]
  rcases configure_cases rsvHi bw rsvLo fmt r with
    ⟨reserved, heq⟩ | ⟨⟨rfl, rfl⟩, hsc, heq⟩ | ⟨⟨rfl, rfl⟩, hsc, hf, heq⟩ | ⟨⟨rfl, rfl⟩, hsc, ⟨f, hf⟩, hn, heq⟩ |
      ⟨⟨rfl, rfl⟩, hsc, ⟨f, hf⟩, n, hn, heq⟩
  · rw [heq, if_pos reserved]; rfl
  · simp [heq, hsc, ErrorCode.code]
  · simp [heq, hsc, hf, ErrorCode.code]
  · simp [heq, hsc, hf, hn, ErrorCode.code]
  · simp [heq, hsc, hf, hn]

/-- `ERR` after PUSH: ERR_NOCFG is its only cause. -/
theorem push_err (o : Word × Word) (w : Word) : (push o w r).1.err = if r.cfgCv = false then 4#8 else r.err := by
  rcases push_cases o w r with ⟨unconfigured, heq⟩ | ⟨configured, heq⟩
  · rw [heq, if_pos unconfigured]; rfl
  · simp [heq, configured]

/-- `ERR` after READ: ERR_CMD is its only cause. -/
theorem readRegister_err (he : r.err = 0#8) (rsv : BitVec 24) (n : BitVec 8) :
    (readRegister rsv n r).1.err = if rsv ≠ 0#24 ∨ 0x0A < n.toNat then 1#8 else 0#8 := by
  by_cases illegal : rsv ≠ 0#24 ∨ 0x0A < n.toNat
  · rw [readRegister_of_illegal he illegal, if_pos illegal]; rfl
  · obtain ⟨hrsv, hn⟩ := not_or.mp illegal
    obtain ⟨v, _, heq⟩ := readRegister_of_legal r (not_not.mp hrsv) (Nat.not_lt.mp hn)
    rw [heq, if_neg illegal]
    exact he

end

/-- Settles O28: `ERR` after each command, by the operation it runs. -/
theorem errorCausesInPriorityOrder : Obligations.ErrorCausesInPriorityOrder := by
  intro i s t he h
  obtain rfl := exec_next h
  cases i with
  | nop arg => simp [runOf, he, Instr.noReserved, Instr.op]
  | reset arg => simp [runOf, Instr.noReserved, Instr.op]
  | config rsvHi bw rsvLo fmt =>
    simp only [runOf, unlessError_of_noError _ he, configure_err, noReserved_config_iff, Instr.arg, configArg_fmt, configArg_bw]
    simp [Instr.op, he]
  | pushDirect w => simp [runOf, he, push_err, Instr.noReserved, Instr.op]
  | pushBfp95 w => simp [runOf, he, push_err, Instr.noReserved, Instr.op]
  | pushBfp126 w => simp [runOf, he, push_err, Instr.noReserved, Instr.op]
  | read rsv n =>
    simp only [runOf, readRegister_err he, noReserved_read_iff]
    simp [Instr.op]
  | reserved5 arg => simp [runOf, he, Instr.noReserved, ErrorCode.code]
  | reserved67 low arg => simp [runOf, he, Instr.noReserved, ErrorCode.code]

/-- Settles O27: of the effects a command can have, raising an error is the only one that leaves `ERR` nonzero where it was 0, and it
is `raiseError` with the command's own `op` and `arg`. -/
theorem errorsArePrecise : Obligations.ErrorsArePrecise := by
  intro i s t he h raised
  obtain rfl := exec_next h
  have heffect := runOf_effect i s.regs
  generalize runOf i s.regs = result at heffect raised ⊢
  cases heffect with
  | reset op => exact absurd rfl raised
  | kept rsp => exact absurd he raised
  | raised code => rfl
  | passBegun fmt bw n => exact absurd he raised
  | sampled re im => exact absurd (by simpa using he) raised

/-! In ERROR state (60_exceptions.md R165) -/

/-- An illegal READ in ERROR state is ignored (60_exceptions.md R165). -/
theorem readRegister_of_illegal_of_error {rsv : BitVec 24} {n : BitVec 8} {r : Regs} (he : r.err ≠ 0#8)
    (illegal : rsv ≠ 0#24 ∨ 0x0A < n.toNat) : readRegister rsv n r = (r, Response.ignored) := by
  rcases readRegister_cases rsv n r with ⟨v, hrsv, hn, _⟩ | ⟨_, _, heq⟩ | ⟨_, noError, _⟩
  · exact absurd illegal (not_or.mpr ⟨not_not_intro hrsv, Nat.not_lt.mpr hn⟩)
  · exact heq
  · exact absurd noError he

/-- A READ whose number has a view answers it in any state (40_control.md R105). -/
theorem readRegister_of_view {n : BitVec 8} {r : Regs} {v : Word} (hv : regRead r n = some v) :
    readRegister 0#24 n r = (r, Response.data v) := by
  have hn : n.toNat ≤ 0x0A := (regRead_isSome r n).mp (by rw [hv]; rfl)
  obtain ⟨v', hv', heq⟩ := readRegister_of_legal r rfl hn
  cases hv.symm.trans hv'
  exact heq

/-- A command that runs outside the ERROR state alone only answers IGNORED in it. -/
theorem exec_of_ignored {i : Instr} {run : Regs → Regs × Response} {s : State} (h : runOf i = unlessError run)
    (he : s.regs.err ≠ 0#8) : exec i s = .next (s.afterResponse Response.ignored) :=
  exec_of_kept (by rw [h, unlessError_of_error run he])

/-- Settles O29: the commands that `unlessError` guards are ignored; NOP, RESET and READ each go by their own rule. -/
theorem errorStateRunsOnlyThreeCommands : Obligations.ErrorStateRunsOnlyThreeCommands := by
  intro i s he
  cases i with
  | nop arg => exact exec_of_kept rfl
  | reset arg => exact (exec_eq_answer (.reset arg) s).trans (answer_eq _ s)
  | read rsv n =>
    refine ⟨?legal, fun illegal => exec_of_kept (readRegister_of_illegal_of_error he illegal)⟩
    rintro v rfl hv
    exact exec_of_kept (readRegister_of_view hv)
  | config rsvHi bw rsvLo fmt => exact exec_of_ignored rfl he
  | pushDirect w => exact exec_of_ignored rfl he
  | pushBfp95 w => exact exec_of_ignored rfl he
  | pushBfp126 w => exact exec_of_ignored rfl he
  | reserved5 arg => exact exec_of_ignored rfl he
  | reserved67 low arg => exact exec_of_ignored rfl he

/-! Leaving the ERROR state (60_exceptions.md R166) -/

/-- In ERROR state every command but RESET keeps every component. -/
theorem runOf_regs_of_error {i : Instr} {r : Regs} (he : r.err ≠ 0#8) (op : i.op ≠ 1#3) : (runOf i r).1 = r := by
  have ignored (run : Regs → Regs × Response) : (unlessError run r).1 = r := by rw [unlessError_of_error run he]
  cases i with
  | nop arg => rfl
  | reset arg => exact absurd rfl op
  | read rsv n =>
    rcases readRegister_cases rsv n r with ⟨v, _, _, _, heq⟩ | ⟨_, _, heq⟩ | ⟨_, noError, _⟩
    · exact congrArg Prod.fst heq
    · exact congrArg Prod.fst heq
    · exact absurd noError he
  | config rsvHi bw rsvLo fmt => exact ignored _
  | pushDirect w => exact ignored _
  | pushBfp95 w => exact ignored _
  | pushBfp126 w => exact ignored _
  | reserved5 arg => exact ignored _
  | reserved67 low arg => exact ignored _

/-- The two reset sources (70_reset_and_hazards.md R190). -/
theorem isReset_iff (e : HostEvent) : e.isReset = true ↔ e = .rst ∨ ∃ w, e = .cmd w ∧ Command.op w = 1#3 := by
  cases e <;> simp [HostEvent.isReset]

/-- What is no reset source. -/
theorem isReset_eq_false_iff (e : HostEvent) :
    e.isReset = false ↔ e ≠ .rst ∧ ∀ w, e = .cmd w → Command.op w ≠ 1#3 := by
  simp [← Bool.not_eq_true, isReset_iff]

/-- In ERROR state a step keeps every component, unless it takes a reset source. -/
theorem step_regs_of_error {s t : State} (he : s.regs.err ≠ 0#8) (hin : noReset s.cmdIn) (h : step s = .next t) :
    t.regs = s.regs ∧ noReset t.cmdIn := by
  rcases step_cases h with ⟨_, rfl⟩ | ⟨rest, hc, _⟩ | ⟨w, rest, i, hc, hd, rfl⟩
  · exact ⟨rfl, hin⟩
  · rw [hc, noReset_cons] at hin
    cases hin.1
  · rw [hc, noReset_cons, isReset_cmd] at hin
    obtain ⟨op, hrest⟩ := hin
    exact ⟨runOf_regs_of_error he ((decode_fields hd).1 ▸ op), hrest⟩

/-- Along any run without a reset source the ERROR state keeps every component. -/
theorem runsTo_regs_of_error {k : Nat} {s t : State} (he : s.regs.err ≠ 0#8) (hin : noReset s.cmdIn) (h : runsTo k s t) :
    t.regs = s.regs := by
  induction k generalizing s with
  | zero => rw [runsTo_zero.mp h]
  | succ k ih =>
    obtain ⟨u, hstep, hrun⟩ := runsTo_succ.mp h
    obtain ⟨same, hrest⟩ := step_regs_of_error he hin hstep
    rw [ih (same ▸ he) hrest hrun, same]

/-- Either reset source gives every component its reset value, in any state (70_reset_and_hazards.md R190, R191). -/
theorem step_of_isReset {s : State} {e : HostEvent} {rest : List HostEvent} (hin : s.cmdIn = e :: rest) (h : e.isReset = true) :
    ∃ t, step s = .next t ∧ t.regs = Regs.reset := by
  rcases (isReset_iff e).mp h with rfl | ⟨w, rfl, op⟩
  · exact ⟨_, step_rst hin, rfl⟩
  · have decoded : decode s.regs.cfgFmt w = .ok (.reset (Command.arg w)) := by
      rw [← decode_reset s.regs.cfgFmt, ← op, Command.mk_op_arg]
    exact ⟨_, step_decoded hin decoded, rfl⟩

/-- Settles O30: the ERROR state is kept at every step of a run without a reset source, and a step that takes one resets. -/
theorem onlyResetLeavesTheErrorState : Obligations.OnlyResetLeavesTheErrorState := by
  refine ⟨fun s t k he hin => runsTo_regs_of_error he fun e hmem => ?noReset, fun s e rest hin h => ?reset⟩
  case noReset => exact (isReset_eq_false_iff e).mpr (hin e hmem)
  case reset => exact step_of_isReset hin ((isReset_iff e).mpr h)

end Sys2Proof.Machine

/-! PROOFS. The encoding: the decoder and the encoder undo each other (30_encoding.md R71 to R77, R83, R88), the arms of the decoder,
the rows of the opcode table, and the words the assembler writes (R86). -/

namespace Sys2Proof

/-! Decoding and encoding -/

/-- A command that is no PUSH form is well formed under every `CFG.FMT` (30_encoding.md R83). -/
theorem wellFormed_of_noPush {i : Instr} (h : i.pushFormat = none) (fmt : BitVec 4) : i.wellFormed fmt = true := by
  simp [Instr.wellFormed, h]

/-- A PUSH form is well formed under the code of its own format alone (30_encoding.md R83). -/
theorem wellFormed_push_iff {i : Instr} {f : Format} (h : i.pushFormat = some f) (fmt : BitVec 4) :
    i.wellFormed fmt = true ↔ fmt = f.code := by
  simp [Instr.wellFormed, h, eq_comm]

/-- Settles O1: each command takes the arm of its own `op`, which reads its fields back; a PUSH form stands under its format's code. -/
theorem decodeOfEncodeIsIdentity : Obligations.DecodeOfEncodeIsIdentity := by
  intro fmt i wf
  cases i with
  | nop arg => exact decode_nop fmt arg
  | reset arg => exact decode_reset fmt arg
  | config rsvHi bw rsvLo f => exact decode_config fmt rsvHi bw rsvLo f
  | pushDirect w =>
    obtain rfl := (wellFormed_push_iff (f := .direct) rfl fmt).mp wf
    exact (Machine.decode_eq_decodePush _ w).trans (decodePush_code .direct w)
  | pushBfp95 w =>
    obtain rfl := (wellFormed_push_iff (f := .bfp95) rfl fmt).mp wf
    exact (Machine.decode_eq_decodePush _ w).trans (decodePush_code .bfp95 w)
  | pushBfp126 w =>
    obtain rfl := (wellFormed_push_iff (f := .bfp126) rfl fmt).mp wf
    exact (Machine.decode_eq_decodePush _ w).trans (decodePush_code .bfp126 w)
  | read rsv n => exact decode_read fmt rsv n
  | reserved5 arg => exact (Machine.reserved_forms fmt arg (i := .reserved5 arg) (op := 5#3) (by simp)).1
  | reserved67 low arg =>
    rcases BitVec.eq_zero_or_eq_one low with rfl | rfl
    · exact (Machine.reserved_forms fmt arg (i := .reserved67 0#1 arg) (op := 6#3) (by simp)).1
    · exact (Machine.reserved_forms fmt arg (i := .reserved67 1#1 arg) (op := 7#3) (by simp)).1

/-- What a PUSH word decodes to is the form that `CFG.FMT` selects (30_encoding.md R83). -/
theorem decodePush_wellFormed {fmt : BitVec 4} {w : Word} {i : Instr} (h : decodePush fmt w = .ok i) : i.wellFormed fmt = true := by
  unfold decodePush at h
  split at h
  · next hf => cases h; exact (wellFormed_push_iff rfl fmt).mpr (Format.ofCode_eq_some hf)
  · next hf => cases h; exact (wellFormed_push_iff rfl fmt).mpr (Format.ofCode_eq_some hf)
  · next hf => cases h; exact (wellFormed_push_iff rfl fmt).mpr (Format.ofCode_eq_some hf)
  · cases h

/-- What a word decodes to is well formed (30_encoding.md R83, R88). -/
theorem decode_wellFormed {fmt : BitVec 4} {cmd : Command} {i : Instr} (h : decode fmt cmd = .ok i) : i.wellFormed fmt = true := by
  rw [← Command.mk_op_arg cmd, decode_mk] at h
  rcases op_cases (Command.op cmd) with hop | hop | hop | hop | hop | hop | hop | hop <;> rw [hop] at h
  · cases h; exact wellFormed_of_noPush rfl fmt
  · cases h; exact wellFormed_of_noPush rfl fmt
  · cases h; exact wellFormed_of_noPush rfl fmt
  · exact decodePush_wellFormed h
  · cases h; exact wellFormed_of_noPush rfl fmt
  · cases h; exact wellFormed_of_noPush rfl fmt
  · cases h; exact wellFormed_of_noPush rfl fmt
  · cases h; exact wellFormed_of_noPush rfl fmt

/-- A command has the word it was decoded from (30_encoding.md R71, R88). -/
theorem encode_of_decode {fmt : BitVec 4} {cmd : Command} {i : Instr} (h : decode fmt cmd = .ok i) : encode i = cmd := by
  obtain ⟨op, arg⟩ := Machine.decode_fields h
  rw [encode, op, arg, Command.mk_op_arg]

/-- Settles O2: a decoded command has the two fields of its word, and the three formats' codes select a PUSH form. -/
theorem encodeOfDecodeIsIdentity : Obligations.EncodeOfDecodeIsIdentity :=
  ⟨fun _ _ _ h => ⟨encode_of_decode h, decode_wellFormed h⟩, decode_ok⟩

/-! The arms of the decoder, with the fields as numbers -/

/-- A field of a word as a number. -/
theorem extractLsb'_toNat_eq_div_mod {n : Nat} (start len : Nat) (x : BitVec n) :
    (BitVec.extractLsb' start len x).toNat = x.toNat / 2 ^ start % 2 ^ len := by
  rw [BitVec.extractLsb'_toNat, Nat.shiftRight_eq_div_pow]

/-- A field that reaches to the top of its word needs no remainder. -/
theorem extractLsb'_top_toNat {n start len : Nat} (x : BitVec n) (h : n ≤ start + len) :
    (BitVec.extractLsb' start len x).toNat = x.toNat / 2 ^ start := by
  rw [extractLsb'_toNat_eq_div_mod]
  refine Nat.mod_eq_of_lt (Nat.div_lt_of_lt_mul ?_)
  rw [← pow_add]
  exact x.isLt.trans_le (Nat.pow_le_pow_right (by decide) h)

/-- Settles O3: one arm of the decoder per value of `op`; the fields of `arg` are digits of its number. -/
theorem decoderArmsByOperation : Obligations.DecoderArmsByOperation := by
  intro fmt arg
  refine ⟨decode_mk fmt 0#3 arg, decode_mk fmt 1#3 arg, ⟨_, _, _, _, decode_mk fmt 2#3 arg, ?fmt, ?bw, ?rsv⟩, decode_mk 0#4 3#3 arg,
    decode_mk 1#4 3#3 arg, decode_mk 2#4 3#3 arg, ⟨_, _, decode_mk fmt 4#3 arg, ?n, ?rsvRead⟩, decode_mk fmt 5#3 arg,
    decode_mk fmt 6#3 arg, decode_mk fmt 7#3 arg⟩
  case fmt => exact (extractLsb'_toNat_eq_div_mod 0 4 arg).trans (by simp)
  case bw => exact extractLsb'_toNat_eq_div_mod 8 8 arg
  case rsv =>
    rw [Ne, Ne, ← BitVec.toNat_inj, ← BitVec.toNat_inj, extractLsb'_top_toNat arg (by decide), extractLsb'_toNat_eq_div_mod]
    rfl
  case n => exact (extractLsb'_toNat_eq_div_mod 0 8 arg).trans (by simp)
  case rsvRead =>
    rw [Ne, ← BitVec.toNat_inj, extractLsb'_top_toNat arg (by decide)]
    rfl

/-- Settles O5: each word written out is evaluated. -/
theorem writtenWordsDecode : Obligations.WrittenWordsDecode := ⟨rfl, rfl, rfl, rfl, rfl, rfl, rfl⟩

/-! The opcode table -/

/-- opcode_table.json with its words taken apart into `op` and `arg`, CONFIG's mask into its fields. -/
theorem opcodeTable_eq : opcodeTable =
    [⟨"NOP", .mk 0#3 0#32, .mk 7#3 0#32, none⟩, ⟨"RESET", .mk 1#3 0#32, .mk 7#3 0#32, none⟩,
      ⟨"CONFIG", .mk 2#3 (configArg 0#16 0#8 0#4 0#4), .mk 7#3 (configArg 0xFFFF#16 0#8 0xF#4 0#4), none⟩,
      ⟨"PUSH.DIRECT", .mk 3#3 0#32, .mk 7#3 0#32, some .direct⟩, ⟨"PUSH.BFP95", .mk 3#3 0#32, .mk 7#3 0#32, some .bfp95⟩,
      ⟨"PUSH.BFP126", .mk 3#3 0#32, .mk 7#3 0#32, some .bfp126⟩,
      ⟨"READ", .mk 4#3 (readArg 0#24 0#8), .mk 7#3 (readArg 0xFFFFFF#24 0#8), none⟩,
      ⟨"RESERVED.5", .mk 5#3 0#32, .mk 7#3 0#32, none⟩, ⟨"RESERVED.6_7", .mk 6#3 0#32, .mk 6#3 0#32, none⟩] := by
  decide

/-- Two concatenations are equal exactly when their parts are. -/
theorem append_inj_iff {m n : Nat} {x x' : BitVec m} {y y' : BitVec n} : x ++ y = x' ++ y' ↔ x = x' ∧ y = y' := by
  refine ⟨fun h => ⟨?high, ?low⟩, by rintro ⟨rfl, rfl⟩; rfl⟩
  case high => simpa [BitVec.extractLsb'_append_eq_left] using congrArg (BitVec.extractLsb' n m) h
  case low => simpa [BitVec.extractLsb'_append_eq_right] using congrArg (BitVec.extractLsb' 0 n) h

/-- A masked concatenation is compared part by part. -/
theorem append_masked_iff {m n : Nat} {x mask bits : BitVec m} {y mask' bits' : BitVec n} :
    (x ++ y) &&& (mask ++ mask') = bits ++ bits' ↔ x &&& mask = bits ∧ y &&& mask' = bits' := by
  rw [BitVec.and_append]
  exact append_inj_iff

/-- A row matches a word where the masked `op` and the masked `arg` are the row's, under the format it asks for. -/
theorem covers_mk_iff {name : String} {bits mask op : BitVec 3} {argBits argMask arg : Word} {f : Option Format} {fmt : BitVec 4} :
    TableRow.covers ⟨name, .mk bits argBits, .mk mask argMask, f⟩ fmt (.mk op arg) = true ↔
      (op &&& mask = bits ∧ arg &&& argMask = argBits) ∧ ∀ g, f = some g → fmt = g.code := by
  have word : Command.mk op arg &&& Command.mk mask argMask = Command.mk bits argBits ↔
      op &&& mask = bits ∧ arg &&& argMask = argBits := append_masked_iff
  cases f <;> simp [TableRow.covers, word, @eq_comm _ fmt]

/-- CONFIG's mask reads its two reserved fields (30_encoding.md R74). -/
theorem configArg_masked_iff {rsvHi : BitVec 16} {bw : BitVec 8} {rsvLo f : BitVec 4} :
    configArg rsvHi bw rsvLo f &&& configArg 0xFFFF#16 0#8 0xF#4 0#4 = configArg 0#16 0#8 0#4 0#4 ↔
      rsvHi = 0#16 ∧ rsvLo = 0#4 := by
  refine append_masked_iff.trans ?_
  rw [append_masked_iff, append_masked_iff]
  have hi : rsvHi &&& 0xFFFF#16 = rsvHi := BitVec.and_allOnes
  have lo : rsvLo &&& 0xF#4 = rsvLo := BitVec.and_allOnes
  simp [hi, lo]

/-- READ's mask reads its reserved field (30_encoding.md R76). -/
theorem readArg_masked_iff {rsv : BitVec 24} {n : BitVec 8} :
    readArg rsv n &&& readArg 0xFFFFFF#24 0#8 = readArg 0#24 0#8 ↔ rsv = 0#24 := by
  refine append_masked_iff.trans ?_
  have reserved : rsv &&& 0xFFFFFF#24 = rsv := BitVec.and_allOnes
  simp [reserved]

/-- A row matches the word of a well-formed command exactly when it is that command's row and no reserved bit of a CONFIG or READ is
set (30_encoding.md R74, R76, R88). -/
theorem covers_encode_iff {fmt : BitVec 4} {i : Instr} (wf : i.wellFormed fmt = true) :
    ∀ row ∈ opcodeTable,
      (row.covers fmt (encode i) = true ↔ row.mnemonic = i.mnemonic ∧ (i.op = 2#3 ∨ i.op = 4#3 → i.writable = true)) := by
  simp only [opcodeTable_eq, List.forall_mem_cons, encode, covers_mk_iff]
  cases i with
  | nop arg => simp [Instr.op, Instr.mnemonic]
  | reset arg => simp [Instr.op, Instr.mnemonic]
  | config rsvHi bw rsvLo f => simp [Instr.op, Instr.mnemonic, Instr.arg, configArg_masked_iff, Instr.writable]
  | pushDirect w =>
    obtain rfl := (wellFormed_push_iff (f := .direct) rfl fmt).mp wf
    simp [Instr.op, Instr.mnemonic, Format.code]
  | pushBfp95 w =>
    obtain rfl := (wellFormed_push_iff (f := .bfp95) rfl fmt).mp wf
    simp [Instr.op, Instr.mnemonic, Format.code]
  | pushBfp126 w =>
    obtain rfl := (wellFormed_push_iff (f := .bfp126) rfl fmt).mp wf
    simp [Instr.op, Instr.mnemonic, Format.code]
  | read rsv n => simp [Instr.op, Instr.mnemonic, Instr.arg, readArg_masked_iff, Instr.writable]
  | reserved5 arg => simp [Instr.op, Instr.mnemonic]
  | reserved67 low arg => rcases BitVec.eq_zero_or_eq_one low with rfl | rfl <;> simp [Instr.op, Instr.mnemonic]

/-- Every command has a row (30_encoding.md R72). -/
theorem exists_row_mnemonic (i : Instr) : ∃ row ∈ opcodeTable, row.mnemonic = i.mnemonic := by
  cases i <;> simp [opcodeTable, Instr.mnemonic]

/-- Settles O4: a word that decodes is the word of its command, and `covers_encode_iff` says which rows match that. -/
theorem tableRowsMatchTheDecoder : Obligations.TableRowsMatchTheDecoder := by
  intro fmt cmd i h
  have covers := covers_encode_iff (decode_wellFormed h)
  rw [encode_of_decode h] at covers
  refine ⟨fun row hrow hc => ((covers row hrow).mp hc).1, ?exists_row⟩
  case exists_row =>
    obtain ⟨own, hown, mnemonic⟩ := exists_row_mnemonic i
    refine ⟨fun ⟨row, hrow, hc⟩ => ((covers row hrow).mp hc).2, fun legal => ⟨own, hown, ?_⟩⟩
    exact (covers own hown).mpr ⟨mnemonic, legal⟩

/-! The words the assembler writes (30_encoding.md R86) -/

/-- A statement guarded by a range is refused exactly outside the range. -/
theorem guarded_ne_none {p : Prop} [Decidable p] {c : Command} : (if p then some c else none) ≠ none ↔ p := by
  simp

/-- The `arg` of the assembler's CONFIG has its reserved bits 0 (30_encoding.md R74). -/
theorem setWidth_config (bw : BitVec 8) (f : BitVec 4) : BitVec.setWidth 32 (bw ++ 0#4 ++ f) = configArg 0#16 bw 0#4 f := by
  apply BitVec.eq_of_toNat_eq
  rw [BitVec.toNat_setWidth_of_le (by decide)]
  simp only [configArg, append_toNat]
  simp

/-- The `arg` of the assembler's READ has its reserved bits 0 (30_encoding.md R76). -/
theorem setWidth_read (n : BitVec 8) : BitVec.setWidth 32 n = readArg 0#24 n := by
  apply BitVec.eq_of_toNat_eq
  rw [BitVec.toNat_setWidth_of_le (by decide), readArg, append_toNat]
  simp

/-- A command word as a number (30_encoding.md R71). -/
theorem Command.mk_toNat (op : BitVec 3) (arg : Word) : (Command.mk op arg).toNat = op.toNat * 2 ^ 32 + arg.toNat :=
  append_toNat op arg

theorem configArg_toNat (bw : BitVec 8) (f : BitVec 4) : (configArg 0#16 bw 0#4 f).toNat = bw.toNat * 2 ^ 8 + f.toNat := by
  simp only [configArg, append_toNat, BitVec.toNat_ofNat]
  omega

theorem readArg_toNat (n : BitVec 8) : (readArg 0#24 n).toNat = n.toNat := by
  rw [readArg, append_toNat]
  simp

end Sys2Proof

namespace Sys2Proof.Machine

section
variable {fmt bw n op arg : Nat}

/-- The assembler's CONFIG (30_encoding.md R86). -/
theorem assemble_config (hfmt : fmt < 16) (hbw : bw < 256) :
    assemble (.config fmt bw) = some (.mk 2#3 (configArg 0#16 (BitVec.ofNat 8 bw) 0#4 (BitVec.ofNat 4 fmt))) := by
  rw [assemble, if_pos ⟨hfmt, hbw⟩, setWidth_config]

/-- The assembler's READ (30_encoding.md R86). -/
theorem assemble_read (hn : n < 256) : assemble (.read n) = some (.mk 4#3 (readArg 0#24 (BitVec.ofNat 8 n))) := by
  rw [assemble, if_pos hn, setWidth_read]

end

/-- A PUSH word under a format is a PUSH, which the assembler can write (30_encoding.md R86). -/
theorem decode_push_writable (f : Format) (w : Word) : ∃ i, decode f.code (.mk 3#3 w) = .ok i ∧ i.writable = true := by
  rw [decode_eq_decodePush, decodePush_code]
  cases f with
  | direct => exact ⟨_, rfl, rfl⟩
  | bfp95 => exact ⟨_, rfl, rfl⟩
  | bfp126 => exact ⟨_, rfl, rfl⟩

/-- The same of a PUSH guarded by a range, where it is not refused. -/
theorem guardedPush_writable (f : Format) {p : Prop} [Decidable p] {arg : Word} {w : Command}
    (h : (if p then some (Command.mk 3#3 arg) else none) = some w) : ∃ i, decode f.code w = .ok i ∧ i.writable = true := by
  obtain ⟨_, rfl⟩ := Option.ite_none_right_eq_some.mp h |>.imp_right Option.some.inj
  exact decode_push_writable f arg

/-- What the assembler writes, `.cmd` aside, has no reserved operation and no reserved bit (30_encoding.md R86). -/
theorem assemble_writable {line : AsmLine} {w : Command} (f : Format) (h : assemble line = some w)
    (noCmd : ∀ op arg, line ≠ .cmd op arg) : ∃ i, decode f.code w = .ok i ∧ i.writable = true := by
  cases line with
  | nop => cases h; exact ⟨_, decode_nop f.code 0#32, rfl⟩
  | reset => cases h; exact ⟨_, decode_reset f.code 0#32, rfl⟩
  | config fmt bw =>
    obtain ⟨_, hw⟩ := Option.ite_none_right_eq_some.mp h
    rw [setWidth_config] at hw
    cases hw
    exact ⟨_, decode_config _ _ _ _ _, by simp [Instr.writable]⟩
  | push n => exact guardedPush_writable f h
  | read n =>
    obtain ⟨_, hw⟩ := Option.ite_none_right_eq_some.mp h
    rw [setWidth_read] at hw
    cases hw
    exact ⟨_, decode_read _ _ _, by simp [Instr.writable]⟩
  | cmd op arg => exact absurd rfl (noCmd op arg)
  | pushIq re im => exact guardedPush_writable f h
  | pushB95 rs rm is im e => exact guardedPush_writable f h
  | pushB126 rs rm is im e => exact guardedPush_writable f h

/-- Settles O52: each statement's word is put together from the fields that the decoder reads back; the guards are the ranges. -/
theorem assemblerWritesOnlyLegalForms : Obligations.AssemblerWritesOnlyLegalForms := by
  refine ⟨⟨rfl, rfl⟩, ?config, ?push, ?read, ?cmd, fun line w f => assemble_writable f, ?configRange, ?readRange, ?pushRange,
    ?cmdRange⟩
  case config =>
    intro fmt bw f hfmt hbw
    refine ⟨_, assemble_config (by omega) (by omega), ?_, decode_config _ _ _ _ _⟩
    rw [Command.mk_toNat, configArg_toNat]
    simp only [BitVec.toNat_ofNat]
    omega
  case push =>
    intro n hn
    refine ⟨_, if_pos hn, ?_, (decode_eq_decodePush _ _).trans (decodePush_code .direct _),
      (decode_eq_decodePush _ _).trans (decodePush_code .bfp95 _), (decode_eq_decodePush _ _).trans (decodePush_code .bfp126 _)⟩
    rw [Command.mk_toNat, BitVec.toNat_ofNat, BitVec.toNat_ofNat, Nat.mod_eq_of_lt hn]
  case read =>
    intro n f hn
    refine ⟨_, assemble_read (by omega), ?_, decode_read _ _ _⟩
    rw [Command.mk_toNat, readArg_toNat]
    simp only [BitVec.toNat_ofNat]
    omega
  case cmd =>
    intro op arg hop harg
    refine ⟨_, if_pos ⟨hop, harg⟩, ?_⟩
    rw [Command.mk_toNat, BitVec.toNat_ofNat, BitVec.toNat_ofNat, Nat.mod_eq_of_lt hop, Nat.mod_eq_of_lt harg]
  case configRange => exact fun fmt bw => guarded_ne_none.trans (by omega)
  case readRange => exact fun n => guarded_ne_none.trans (by omega)
  case pushRange => exact fun w => guarded_ne_none
  case cmdRange => exact fun op arg => guarded_ne_none

end Sys2Proof.Machine

/-! PROOFS. The steps of the machine: the invariants of 10_state.md R36 along them, which commands write which component (R20), what READ
observes of the state (R35), and the order of the responses (20_memory.md R58). -/

namespace Sys2Proof.Machine

/-! One step -/

/-- Settles O6: a step on an offered command is `runCommand`, which runs what the word decodes to. -/
theorem stepRunsDecodedCommand : Obligations.StepRunsDecodedCommand := fun _ _ _ _ h hd => step_eq_exec h hd

/-- Settles O7: a step on the reset input is `resetInput`. -/
theorem resetInputResetsWithoutResponse : Obligations.ResetInputResetsWithoutResponse := fun _ _ h => step_rst h

/-- Settles O8: a step with nothing offered is none. -/
theorem stepWithoutCommandHoldsState : Obligations.StepWithoutCommandHoldsState := fun _ h => step_nil h

/-- Settles O20: each PUSH form is `push` with its own output, and none of them asks for `CFG.FMT` before it asks for `CFG.CV`. -/
theorem pushWithoutConfigurationRaisesNoCfg : Obligations.PushWithoutConfigurationRaisesNoCfg := fun w _ noError unconfigured =>
  ⟨exec_of_unconfiguredPush (o := outputsOf .direct w) rfl noError unconfigured,
    exec_of_unconfiguredPush (o := outputsOf .bfp95 w) rfl noError unconfigured,
    exec_of_unconfiguredPush (o := outputsOf .bfp126 w) rfl noError unconfigured⟩

/-! The invariants of 10_state.md R36, operation by operation -/

/-- Settles O10: after reset nothing is configured and no error is recorded. -/
theorem resetSatisfiesInvariants : Obligations.ResetSatisfiesInvariants := by
  refine ⟨fun _ => ⟨rfl, rfl, rfl, rfl, rfl, rfl⟩, fun configured => ?_, fun _ => ⟨rfl, rfl⟩, .inl rfl⟩
  cases configured

/-- The codes of the three formats (30_encoding.md R75). -/
theorem legalFormat_iff (fmt : BitVec 4) : (fmt = 0#4 ∨ fmt = 1#4 ∨ fmt = 2#4) ↔ ∃ f : Format, fmt = f.code := by
  refine ⟨?_, fun ⟨f, h⟩ => ?_⟩
  · rintro (rfl | rfl | rfl)
    exacts [⟨.direct, rfl⟩, ⟨.bfp95, rfl⟩, ⟨.bfp126, rfl⟩]
  · cases f
    exacts [.inl h, .inr (.inl h), .inr (.inr h)]

section
variable {r : Regs}

/-- Where R36 holds, `CFG.FMT` is the code of one of the three formats, so that every word decodes. -/
theorem Regs.inv.exists_format (h : r.inv) : ∃ f : Format, r.cfgFmt = f.code := by
  obtain ⟨unconfigured, configured, _⟩ := h
  rw [← legalFormat_iff]
  cases hc : r.cfgCv with
  | false => exact .inl (unconfigured hc).1
  | true => exact (configured hc).1

/-- Raising an error keeps the configuration and the position, and records a known code. -/
theorem Regs.inv.raiseError (h : r.inv) (code : ErrorCode) (op : BitVec 3) (arg : Word) : (raiseError code op arg r).1.inv := by
  obtain ⟨unconfigured, configured, _⟩ := h
  refine ⟨unconfigured, configured, fun noError => absurd noError code.code_ne_zero, ?known⟩
  case known => cases code <;> simp [Regs.knownError, ErrorCode.code]

/-- A new pass has a legal format and bandwidth and begins inside its first record. -/
theorem Regs.inv.beginPass (h : r.inv) {f : Format} {bw : BitVec 8} {n : BitVec 16} {fmt : BitVec 4}
    (hf : Format.ofCode fmt = some f) (hn : nsubOf bw = some n) : (beginPass fmt bw n r).inv := by
  obtain ⟨_, _, noCommand, known⟩ := h
  refine ⟨fun unconfigured => Bool.noConfusion unconfigured, fun _ => ⟨?format, ?bandwidth, hn, ?inside⟩, noCommand, known⟩
  case format => exact (legalFormat_iff fmt).mpr ⟨f, Format.ofCode_eq_some hf⟩
  case bandwidth => rcases nsubOf_eq_some hn with ⟨rfl, _⟩ | ⟨rfl, _⟩ | ⟨rfl, _⟩ | ⟨rfl, _⟩ <;> simp
  case inside => rcases nsubOf_eq_some hn with ⟨_, rfl⟩ | ⟨_, rfl⟩ | ⟨_, rfl⟩ | ⟨_, rfl⟩ <;> simp

/-- `Advance` stays inside the record: at its last subcarrier it goes back to 0, and before it the sum does not wrap
(40_control.md R107). -/
theorem advance_scIdx_lt (inside : r.scIdx < r.nsub) : (advance r).scIdx < r.nsub := by
  rw [advance_scIdx]
  split <;> bv_omega

/-- A PUSH's output in a configured block keeps the configuration and stays inside the record. -/
theorem Regs.inv.sampled (h : r.inv) (configured : r.cfgCv = true) (re im : Word) : (advance (recordOutput re im r)).inv := by
  obtain ⟨_, legal, noCommand, known⟩ := h
  obtain ⟨format, bandwidth, count, inside⟩ := legal configured
  refine ⟨fun unconfigured => ?unconfigured,
    fun _ => ⟨by simpa using format, by simpa using bandwidth, by simpa using count, ?inside⟩,
    by simpa [Regs.noCommandWithoutError] using noCommand, by simpa [Regs.knownError] using known⟩
  case unconfigured => simp [configured] at unconfigured
  case inside => simpa using advance_scIdx_lt (r := recordOutput re im r) inside

/-- A command ignored in ERROR state changes nothing. -/
theorem Regs.inv.unlessError (h : r.inv) {run : Regs → Regs × Response} (hrun : (run r).1.inv) : (unlessError run r).1.inv := by
  rcases unlessError_cases run r with ⟨_, heq⟩ | ⟨_, heq⟩
  · rwa [heq]
  · rwa [heq]

theorem Regs.inv.configure (h : r.inv) (rsvHi : BitVec 16) (bw : BitVec 8) (rsvLo fmt : BitVec 4) :
    (configure rsvHi bw rsvLo fmt r).1.inv := by
  rcases configure_cases rsvHi bw rsvLo fmt r with
    ⟨_, heq⟩ | ⟨_, _, heq⟩ | ⟨_, _, _, heq⟩ | ⟨_, _, _, _, heq⟩ | ⟨_, _, ⟨f, hf⟩, n, hn, heq⟩
  · exact heq ▸ h.raiseError _ _ _
  · exact heq ▸ h.raiseError _ _ _
  · exact heq ▸ h.raiseError _ _ _
  · exact heq ▸ h.raiseError _ _ _
  · exact heq ▸ h.beginPass hf hn

theorem Regs.inv.push (h : r.inv) (o : Word × Word) (w : Word) : (push o w r).1.inv := by
  rcases push_cases o w r with ⟨_, heq⟩ | ⟨configured, heq⟩
  · exact heq ▸ h.raiseError _ _ _
  · exact heq ▸ h.sampled configured o.1 o.2

theorem Regs.inv.readRegister (h : r.inv) (rsv : BitVec 24) (n : BitVec 8) : (readRegister rsv n r).1.inv := by
  rcases readRegister_cases rsv n r with ⟨_, _, _, _, heq⟩ | ⟨_, _, heq⟩ | ⟨_, _, heq⟩
  · rwa [heq]
  · rwa [heq]
  · exact heq ▸ h.raiseError _ _ _

/-- Every command keeps R36. -/
theorem Regs.inv.runOf (h : r.inv) (i : Instr) : (runOf i r).1.inv := by
  cases i with
  | nop arg => exact h
  | reset arg => exact resetSatisfiesInvariants
  | config rsvHi bw rsvLo fmt => exact h.unlessError (h.configure rsvHi bw rsvLo fmt)
  | pushDirect w => exact h.unlessError (h.push _ w)
  | pushBfp95 w => exact h.unlessError (h.push _ w)
  | pushBfp126 w => exact h.unlessError (h.push _ w)
  | read rsv n => exact h.readRegister rsv n
  | reserved5 arg => exact h.unlessError (h.raiseError _ _ _)
  | reserved67 low arg => exact h.unlessError (h.raiseError _ _ _)

end

/-! Steps and runs where R36 holds -/

/-- Settles O11: a step waits, resets or runs one command. -/
theorem stepKeepsInvariants : Obligations.StepKeepsInvariants := by
  intro s t h hstep
  rcases step_cases hstep with ⟨_, rfl⟩ | ⟨_, _, rfl⟩ | ⟨_, _, i, _, _, rfl⟩
  · exact h
  · exact resetSatisfiesInvariants
  · exact h.runOf i

/-- Where R36 holds, every word is the word of a command. -/
theorem Regs.inv.decode_ok {r : Regs} (h : r.inv) (w : Command) : ∃ i, decode r.cfgFmt w = .ok i := by
  obtain ⟨f, hf⟩ := h.exists_format
  exact hf ▸ Sys2Proof.decode_ok f w

/-- Settles O9: the word decodes, and the step on it is what the command does, with its response. -/
theorem everyCommandHasOneResult : Obligations.EveryCommandHasOneResult := by
  intro s w rest h hin
  obtain ⟨i, hd⟩ := h.decode_ok w
  exact ⟨_, _, step_decoded hin hd, h.runOf i⟩

/-- Where R36 holds, a step answers a next state (00_scope.md R12). -/
theorem exists_step {s : State} (h : s.regs.inv) : ∃ t, step s = .next t := by
  match hin : s.cmdIn with
  | [] => exact ⟨_, step_nil hin⟩
  | .rst :: rest => exact ⟨_, step_rst hin⟩
  | .cmd w :: rest =>
    obtain ⟨i, hd⟩ := h.decode_ok w
    exact ⟨_, step_decoded hin hd⟩

/-- Settles O12: R36 makes the next step possible, and the step keeps R36. -/
theorem noRunStops : Obligations.NoRunStops := by
  intro s h k
  induction k generalizing s with
  | zero => exact ⟨s, runsTo_zero.mpr rfl⟩
  | succ k ih =>
    obtain ⟨u, hstep⟩ := exists_step h
    obtain ⟨t, hrun⟩ := ih u (stepKeepsInvariants s u h hstep)
    exact ⟨t, runsTo_succ.mpr ⟨u, hstep, hrun⟩⟩

/-! READ observes everything -/

/-- The value of a narrow view determines its component. -/
theorem setWidth_injective {w : Nat} {x y : BitVec w} (hw : w ≤ 32) (h : BitVec.setWidth 32 x = BitVec.setWidth 32 y) : x = y := by
  apply BitVec.eq_of_toNat_eq
  rw [← BitVec.toNat_setWidth_of_le hw, h, BitVec.toNat_setWidth_of_le hw]

/-- A flag is determined by its digit. -/
theorem bool_eq_of_toNat_eq {a b : Bool} (h : a.toNat = b.toNat) : a = b := by
  revert a b
  decide

/-- STATUS shows ERR, `CFG.CV` and `OUT_VALID` (10_state.md R23). -/
theorem status_injective {r r' : Regs} (h : r.status = r'.status) :
    r.err = r'.err ∧ r.cfgCv = r'.cfgCv ∧ r.outValid = r'.outValid := by
  have sum := congrArg BitVec.toNat h
  rw [status_toNat, status_toNat] at sum
  have err := r.err.isLt
  have err' := r'.err.isLt
  have cv := r.cfgCv.toNat_lt
  have cv' := r'.cfgCv.toNat_lt
  have valid := r.outValid.toNat_lt
  have valid' := r'.outValid.toNat_lt
  exact ⟨BitVec.eq_of_toNat_eq (by omega), bool_eq_of_toNat_eq (by omega), bool_eq_of_toNat_eq (by omega)⟩

/-- CFG shows `CFG.FMT` and `CFG.BW` (10_state.md R25). -/
theorem cfg_injective {r r' : Regs} (h : r.cfg = r'.cfg) : r.cfgFmt = r'.cfgFmt ∧ r.cfgBw = r'.cfgBw := by
  have sum := congrArg BitVec.toNat h
  rw [cfg_toNat, cfg_toNat] at sum
  have fmt := r.cfgFmt.isLt
  have fmt' := r'.cfgFmt.isLt
  have bw := r.cfgBw.isLt
  have bw' := r'.cfgBw.isLt
  have cv := r.cfgCv.toNat_lt
  have cv' := r'.cfgCv.toNat_lt
  exact ⟨BitVec.eq_of_toNat_eq (by omega), BitVec.eq_of_toNat_eq (by omega)⟩

/-- Settles O19: each of the fourteen components is determined by the view it stands in. -/
theorem readsDetermineTheState : Obligations.ReadsDetermineTheState := by
  intro r r' h
  obtain ⟨err, cfgCv, outValid⟩ := status_injective (Option.some.inj (h 0x00#8 (by decide)))
  obtain ⟨cfgFmt, cfgBw⟩ := cfg_injective (Option.some.inj (h 0x01#8 (by decide)))
  have nsub := setWidth_injective (by decide) (Option.some.inj (h 0x02#8 (by decide)))
  have scIdx := setWidth_injective (by decide) (Option.some.inj (h 0x03#8 (by decide)))
  have recIdx := Option.some.inj (h 0x04#8 (by decide))
  have outRe := Option.some.inj (h 0x05#8 (by decide))
  have outIm := Option.some.inj (h 0x06#8 (by decide))
  have outSc := setWidth_injective (by decide) (Option.some.inj (h 0x07#8 (by decide)))
  have outRec := Option.some.inj (h 0x08#8 (by decide))
  have errOp := setWidth_injective (by decide) (Option.some.inj (h 0x09#8 (by decide)))
  have errArg := Option.some.inj (h 0x0A#8 (by decide))
  cases r
  cases r'
  simp only [Regs.mk.injEq]
  exact ⟨cfgCv, cfgFmt, cfgBw, nsub, scIdx, recIdx, outValid, outRe, outIm, outSc, outRec, err, errOp, errArg⟩

/-! The frame of the commands -/

/-- Settles O26: each effect a command can have writes the components of its own column alone. -/
theorem everyComponentHasItsWriters : Obligations.EveryComponentHasItsWriters := by
  intro i s t h
  obtain rfl := exec_next h
  have heffect := runOf_effect i s.regs
  generalize runOf i s.regs = result at heffect ⊢
  cases heffect with
  | reset op => simp [op]
  | kept rsp => simp
  | raised code => simp [Response.error]
  | passBegun fmt bw n op => simp [op]
  | sampled re im op => simp [op]

/-! The order of the responses -/

/-- A step adds responses behind those already returned. -/
theorem step_rspOut {s t : State} (h : step s = .next t) : s.rspOut <+: t.rspOut := by
  rcases step_cases h with ⟨_, rfl⟩ | ⟨_, _, rfl⟩ | ⟨_, _, _, _, _, rfl⟩
  · exact List.prefix_rfl
  · exact List.prefix_rfl
  · exact List.prefix_append _ _

/-- Along a run the responses already returned stand (20_memory.md R58). -/
theorem runsTo_rspOut {k : Nat} {s t : State} (h : runsTo k s t) : s.rspOut <+: t.rspOut := by
  induction k generalizing s with
  | zero => rw [runsTo_zero.mp h]
  | succ k ih =>
    obtain ⟨u, hstep, hrun⟩ := runsTo_succ.mp h
    exact (step_rspOut hstep).trans (ih hrun)

/-- A longer history begins as the shorter one: its responses stand first. -/
theorem answersAll_append_rspOut {evs more : List HostEvent} {t u : State} (h : answersAll evs t) (h' : answersAll (evs ++ more) u) :
    t.rspOut <+: u.rspOut := by
  unfold answersAll at h'
  rw [List.length_append] at h'
  obtain ⟨v, first, last⟩ := runsTo_add.mp h'
  obtain ⟨w, hw, _, rfl⟩ := (runsTo_offered_more evs more _ _ v).mp first
  obtain rfl := runsTo_unique h hw
  exact runsTo_rspOut (s := { t with cmdIn := more }) last

/-- Settles O35: there is one response per command, and the shorter history's responses stand first in the longer one's. -/
theorem responsesFollowCommandOrder : Obligations.ResponsesFollowCommandOrder := by
  intro evs more t u h h'
  have count := answersAll_length h
  exact ⟨count, count ▸ (List.prefix_iff_eq_take.mp (answersAll_append_rspOut h h')).symm⟩

end Sys2Proof.Machine

/-! PROOFS. The pass: driven in the order of 70_reset_and_hazards.md R193 it fills the matrix row by row (40_control.md R104), and it is
whole on a whole number of records (R194). -/

namespace Sys2Proof.Machine

/-! The position of an output -/

/-- The architectural state inside a pass of format `f` and `n` subcarriers per record, before its output `k`: no error, and the
position is record `k div n` modulo 2^32, subcarrier `k mod n` (40_control.md R104). -/
structure InPass (f : Format) (n k : Nat) (r : Regs) : Prop where
  noError : r.err = 0#8
  configured : r.cfgCv = true
  format : r.cfgFmt = f.code
  count : r.nsub.toNat = n
  subcarrier : r.scIdx.toNat = k % n
  record : r.recIdx.toNat = k / n % 2 ^ 32

section
variable {f : Format} {n k : Nat} {r : Regs}

/-- The position before output `k` in a SAMPLE response (30_encoding.md R78). -/
theorem InPass.sample_eq (h : InPass f n k r) (re im : Word) :
    Response.sample re im r.recIdx r.scIdx = Response.sample re im (BitVec.ofNat 32 (k / n)) (BitVec.ofNat 16 (k % n)) := by
  have record : r.recIdx = BitVec.ofNat 32 (k / n) := BitVec.eq_of_toNat_eq (by rw [h.record, BitVec.toNat_ofNat])
  have subcarrier : r.scIdx = BitVec.ofNat 16 (k % n) := by rw [← h.subcarrier, BitVec.ofNat_toNat, BitVec.setWidth_eq]
  rw [record, subcarrier]

/-- The step from one position to the next, by quotient and remainder: at the last subcarrier to the next record, and else within the
record. -/
theorem succ_div_mod (hn : 0 < n) :
    if k % n + 1 = n then (k + 1) / n = k / n + 1 ∧ (k + 1) % n = 0 else (k + 1) / n = k / n ∧ (k + 1) % n = k % n + 1 := by
  have split := Nat.mod_add_div k n
  have below := Nat.mod_lt k hn
  split
  · next last =>
    refine (Nat.div_mod_unique hn).mpr ⟨?_, hn⟩
    rw [Nat.mul_add]
    omega
  · exact (Nat.div_mod_unique hn).mpr ⟨by omega, by omega⟩

/-- After output `k` the position is that of output `k + 1` (40_control.md R107). -/
theorem InPass.advance (hn : 0 < n) (h : InPass f n k r) (re im : Word) : InPass f n (k + 1) (advance (recordOutput re im r)) := by
  have next := succ_div_mod (k := k) hn
  have small : n < 2 ^ 16 := h.count ▸ r.nsub.isLt
  refine ⟨by simpa using h.noError, by simpa using h.configured, by simpa using h.format, by simpa using h.count, ?subcarrier, ?record⟩
  case subcarrier =>
    simp only [advance_scIdx, recordOutput_scIdx, recordOutput_nsub, h.subcarrier, h.count]
    split
    · next last =>
      rw [if_pos last] at next
      exact next.2.symm
    · next inside =>
      rw [if_neg inside] at next
      have below := Nat.mod_lt k hn
      rw [next.2, BitVec.toNat_add, h.subcarrier]
      exact Nat.mod_eq_of_lt (by simp; omega)
  case record =>
    simp only [advance_recIdx, recordOutput_scIdx, recordOutput_nsub, recordOutput_recIdx, h.subcarrier, h.count]
    split
    · next last =>
      rw [if_pos last] at next
      rw [next.1, BitVec.toNat_add, h.record]
      simp
    · next inside =>
      rw [if_neg inside] at next
      rw [next.1, h.record]

/-- Inside a pass a PUSH word is answered with its sample (40_control.md R106). -/
theorem InPass.step_push (h : InPass f n k r) (w : Word) (rest : List HostEvent) (out : List Response) :
    step ⟨r, .cmd (.mk 3#3 w) :: rest, out⟩ =
      .next ⟨Machine.advance (recordOutput (outputsOf f w).1 (outputsOf f w).2 r), rest,
        out ++ passSamples f n k [w]⟩ := by
  obtain ⟨i, decoded, run⟩ := decode_push f w
  have pushed : runOf i r = (Machine.advance (recordOutput (outputsOf f w).1 (outputsOf f w).2 r),
      Response.sample (outputsOf f w).1 (outputsOf f w).2 r.recIdx r.scIdx) := by
    rw [run, unlessError_of_noError _ h.noError, push, if_neg (by simp [h.configured])]
  rw [step_decoded (s := ⟨r, _, out⟩) rfl (h.format ▸ decoded), pushed, h.sample_eq]
  rfl

/-- The words of a pass from output `k` on (40_control.md R104). -/
theorem InPass.runsTo_pushEvents (hn : 0 < n) (ws : List Word) (h : InPass f n k r) (out : List Response) :
    ∃ r', runsTo ws.length ⟨r, pushEvents ws, out⟩ ⟨r', [], out ++ passSamples f n k ws⟩ ∧ InPass f n (k + ws.length) r' := by
  induction ws generalizing k r out with
  | nil => exact ⟨r, by simp [pushEvents, passSamples], h⟩
  | cons w ws ih =>
    obtain ⟨r', run, last⟩ := ih (h.advance hn (outputsOf f w).1 (outputsOf f w).2) (out ++ passSamples f n k [w])
    refine ⟨r', runsTo_succ.mpr ⟨_, h.step_push w (pushEvents ws) out, ?_⟩, ?_⟩
    · simpa [passSamples] using run
    · simpa [Nat.add_assoc, Nat.add_comm 1] using last

end

/-! The whole pass -/

/-- After CONFIG a pass stands before its output 0 (40_control.md R103). -/
theorem inPass_beginPass (f : Format) (bw : BitVec 8) (n : BitVec 16) : InPass f n.toNat 0 (beginPass f.code bw n Regs.reset) :=
  ⟨rfl, rfl, rfl, rfl, by simp, by simp⟩

/-- A record has subcarriers (10_state.md R27). -/
theorem nsubOf_pos {bw : BitVec 8} {n : BitVec 16} (h : nsubOf bw = some n) : 0 < n.toNat := by
  rcases nsubOf_eq_some h with ⟨_, rfl⟩ | ⟨_, rfl⟩ | ⟨_, rfl⟩ | ⟨_, rfl⟩ <;> decide

/-- A pass from reset: RESET and CONFIG are answered NONE, and its words one after the other (70_reset_and_hazards.md R193). -/
theorem runsTo_passEvents (f : Format) {bw : BitVec 8} {n : BitVec 16} (ws : List Word) (hn : nsubOf bw = some n) :
    ∃ r, InPass f n.toNat ws.length r ∧ runsTo (ws.length + 2) { State.reset with cmdIn := passEvents f bw ws }
      ⟨r, [], Response.nothing :: Response.nothing :: passSamples f n.toNat 0 ws⟩ := by
  have config : runOf (.config 0#16 bw 0#4 f.code) Regs.reset = (beginPass f.code bw n Regs.reset, Response.nothing) :=
    (unlessError_of_noError _ rfl).trans (configure_of_legal rfl (Format.ofCode_code f) hn)
  obtain ⟨r, run, last⟩ := (inPass_beginPass f bw n).runsTo_pushEvents (nsubOf_pos hn) ws [Response.nothing, Response.nothing]
  refine ⟨r, by simpa using last, runsTo_succ.mpr ⟨_, step_decoded rfl (decode_reset _ 0#32), runsTo_succ.mpr
    ⟨_, step_decoded rfl (decode_config _ 0#16 bw 0#4 f.code), ?pushes⟩⟩⟩
  case pushes =>
    simp only [runOf] at config ⊢
    rw [config]
    exact run

/-- Settles O36: from reset, RESET and CONFIG begin the pass, and each PUSH moves it to its next output. -/
theorem passFillsTheMatrixInOrder : Obligations.PassFillsTheMatrixInOrder := by
  intro f bw n ws hn
  obtain ⟨r, last, run⟩ := runsTo_passEvents f ws hn
  exact ⟨_, run, rfl, rfl, last.noError, last.subcarrier, last.record⟩

/-- The outputs of a pass are SAMPLE responses (30_encoding.md R78). -/
theorem kind_of_mem_passSamples {f : Format} {n k : Nat} {ws : List Word} {rsp : Response} (h : rsp ∈ passSamples f n k ws) :
    rsp.kind = .sample := by
  induction ws generalizing k with
  | nil => cases h
  | cons w ws ih =>
    rcases List.mem_cons.mp h with rfl | hmem
    · rfl
    · exact ih hmem

/-- Settles O37: the pass of O36 ends at the position of its next output, which is subcarrier 0 exactly after a whole number of records;
its result leaves out the two responses NONE before it. -/
theorem passIsWholeOnWholeRecords : Obligations.PassIsWholeOnWholeRecords := by
  intro f bw n ws t hn ht
  obtain ⟨r, last, run⟩ := runsTo_passEvents f ws hn
  obtain rfl := runsTo_unique ht run
  refine ⟨?whole, fun c hc => ?records, ?result⟩
  case whole => simp [passWhole, last.noError, ← BitVec.toNat_inj, last.subcarrier, Nat.dvd_iff_mod_eq_zero]
  case records =>
    refine BitVec.eq_of_toNat_eq ?_
    rw [last.record, hc, Nat.mul_div_cancel _ (nsubOf_pos hn), BitVec.toNat_ofNat]
  case result =>
    have samples : (passSamples f n.toNat 0 ws).filter (fun r => decide (r.kind = .sample)) = passSamples f n.toNat 0 ws :=
      List.filter_eq_self.mpr fun rsp hmem => decide_eq_true (kind_of_mem_passSamples hmem)
    rw [passResult, if_pos last.noError]
    exact congrArg some samples

end Sys2Proof.Machine

/-! PROOFS. The number format (30_encoding.md R84, R85): the binary32 word of an integer by its sign, its exponent and its significand of 24
bits, and the integer it stands for. -/

namespace Sys2Proof.Machine

/-! The significand -/

/-- The significand of a magnitude: its 24 leading bits, the leading one at bit 23 (30_encoding.md R84). -/
def significand (a : Nat) : Nat := a * 2 ^ 23 / 2 ^ a.log2

/-- The two cases in which R84 writes the fraction are one quotient. -/
theorem significand_eq_ite (a : Nat) :
    significand a = if a.log2 ≤ 23 then a * 2 ^ (23 - a.log2) else a / 2 ^ (a.log2 - 23) := by
  unfold significand
  split
  · next h =>
    rw [← Nat.sub_add_cancel h, pow_add, ← mul_assoc, Nat.mul_div_cancel _ (Nat.two_pow_pos _), Nat.sub_add_cancel h]
  · next h =>
    obtain ⟨d, hd⟩ := Nat.exists_eq_add_of_lt (Nat.lt_of_not_le h)
    rw [hd, show 23 + d + 1 - 23 = d + 1 by omega, show 23 + d + 1 = d + 1 + 23 by omega, pow_add,
      Nat.mul_div_mul_right _ _ (Nat.two_pow_pos 23)]

section
variable {a : Nat}

/-- The leading one of a significand stands at bit 23. -/
theorem significand_bounds (ha : a ≠ 0) : 2 ^ 23 ≤ significand a ∧ significand a < 2 ^ 24 := by
  have lower := Nat.log2_self_le ha
  have upper := Nat.lt_log2_self (n := a)
  constructor
  · rw [significand, Nat.le_div_iff_mul_le (Nat.two_pow_pos _), mul_comm]
    exact Nat.mul_le_mul_right _ lower
  · rw [significand, Nat.div_lt_iff_lt_mul (Nat.two_pow_pos _), show 2 ^ 24 * 2 ^ a.log2 = 2 ^ (a.log2 + 1) * 2 ^ 23 by ring]
    exact Nat.mul_lt_mul_of_pos_right upper (Nat.two_pow_pos 23)

/-- Scaling by a power of two moves the leading one. -/
theorem log2_mul_two_pow (ha : a ≠ 0) (k : Nat) : (a * 2 ^ k).log2 = a.log2 + k := by
  have nonzero : a * 2 ^ k ≠ 0 := Nat.mul_ne_zero ha (Nat.two_pow_pos k).ne'
  refine (Nat.log2_eq_iff nonzero).mpr ⟨?_, ?_⟩
  · rw [pow_add]
    exact Nat.mul_le_mul_right _ (Nat.log2_self_le ha)
  · rw [show a.log2 + k + 1 = a.log2 + 1 + k by omega, pow_add _ _ k]
    exact Nat.mul_lt_mul_of_pos_right Nat.lt_log2_self (Nat.two_pow_pos k)

/-- Scaling by a power of two leaves the significand. -/
theorem significand_mul_two_pow (ha : a ≠ 0) (k : Nat) : significand (a * 2 ^ k) = significand a := by
  rw [significand, log2_mul_two_pow ha, pow_add, mul_right_comm, Nat.mul_div_mul_right _ _ (Nat.two_pow_pos k), significand]

/-- The significand of 24 bits holds them all. -/
theorem significand_mul_two_pow_log2 (small : a < 2 ^ 24) : significand a * 2 ^ a.log2 = a * 2 ^ 23 := by
  have fits : a.log2 ≤ 23 := by
    rcases eq_or_ne a 0 with rfl | ha
    · simp
    · have := (Nat.log2_lt ha).mpr small
      omega
  exact Nat.div_mul_cancel (Dvd.dvd.mul_left (pow_dvd_pow 2 fits) a)

end

/-! The fields of a binary32 word -/

section
variable (s : BitVec 1) (e : BitVec 8) (frac : BitVec 23)

theorem f32Exponent_append : f32Exponent (s ++ e ++ frac) = e.toNat := by
  rw [f32Exponent, BitVec.extractLsb'_append_eq_of_le (by decide), BitVec.extractLsb'_append_eq_of_add_le (by decide)]
  simp

theorem f32Fraction_append : f32Fraction (s ++ e ++ frac) = frac.toNat := by
  rw [f32Fraction, BitVec.extractLsb'_append_eq_of_add_le (by decide)]
  simp

theorem f32Sign_append : f32Sign (s ++ e ++ frac) = decide (s = 1#1) := by
  rw [f32Sign, BitVec.getLsbD_append, BitVec.getLsbD_append]
  rcases BitVec.eq_zero_or_eq_one s with rfl | rfl <;> rfl

end

/-- The sign bit of an integer (30_encoding.md R84). -/
def signBit (v : Int) : BitVec 1 := if v < 0 then 1#1 else 0#1

/-- The sign bit as the factor by which `f32Value` reads it. -/
theorem signBit_mul_natAbs (v : Int) : (if decide (signBit v = 1#1) then -1 else 1) * (v.natAbs : ℚ) = v := by
  rcases lt_or_ge v 0 with h | h
  · simp [signBit, h, Nat.cast_natAbs, abs_of_neg h]
  · simp [signBit, not_lt.mpr h, Nat.cast_natAbs, abs_of_nonneg h]

section
variable {m : Int}

/-- The word of a nonzero dyadic rational: its sign, its exponent and its significand without the leading one (42_bfp.md R138). -/
theorem f32Scaled_eq (hm : m ≠ 0) (k : Int) :
    f32Scaled m k = signBit m ++ BitVec.ofInt 8 (m.natAbs.log2 + k + 127) ++ BitVec.ofNat 23 (significand m.natAbs) := by
  have fraction : BitVec.ofNat 23 (significand m.natAbs) = BitVec.ofNat 23
      (if m.natAbs.log2 ≤ 23 then m.natAbs * 2 ^ (23 - m.natAbs.log2) % 2 ^ 23
        else m.natAbs / 2 ^ (m.natAbs.log2 - 23) % 2 ^ 23) := by
    apply BitVec.eq_of_toNat_eq
    rw [significand_eq_ite]
    split <;> simp
  rw [fraction, f32Scaled, if_neg hm]
  rfl

/-- The word of the integer `m · 2^k` is that of the dyadic rational: R84 and R138 agree on integers. -/
theorem f32_mul_two_pow (m : Int) (k : Nat) : f32 (m * 2 ^ k) = f32Scaled m k := by
  rcases eq_or_ne m 0 with rfl | hm
  · simp [f32Scaled]
  have nonzero : m * 2 ^ k ≠ 0 := mul_ne_zero hm (by positivity)
  have unscaled : f32 (m * 2 ^ k) = f32Scaled (m * 2 ^ k) 0 := by
    have cast : BitVec.ofInt 8 ((m * 2 ^ k).natAbs.log2 + 0 + 127) = BitVec.ofNat 8 ((m * 2 ^ k).natAbs.log2 + 127) := by
      rw [← BitVec.ofInt_natCast]
      simp
    simp only [f32, f32Scaled, if_neg nonzero, cast]
  have sign : signBit (m * 2 ^ k) = signBit m := by
    have positive : (0 : Int) < 2 ^ k := by positivity
    simp only [signBit, mul_neg_iff, positive, not_lt.mpr positive.le]
    simp
  have magnitude : (m * 2 ^ k).natAbs = m.natAbs * 2 ^ k := by rw [Int.natAbs_mul, Int.natAbs_pow]; rfl
  have ha : m.natAbs ≠ 0 := Int.natAbs_ne_zero.mpr hm
  rw [unscaled, f32Scaled_eq nonzero, f32Scaled_eq hm, sign, magnitude, log2_mul_two_pow ha, significand_mul_two_pow ha]
  simp

theorem f32_eq_f32Scaled (v : Int) : f32 v = f32Scaled v 0 := by
  simpa using f32_mul_two_pow v 0

/-- The biased exponent of a nonzero dyadic rational whose exponent is that of a normal number. -/
theorem f32Exponent_f32Scaled (hm : m ≠ 0) {k : Int} {x : Nat} (hx : m.natAbs.log2 + k + 127 = x) (normal : x < 256) :
    f32Exponent (f32Scaled m k) = x := by
  rw [f32Scaled_eq hm, hx, f32Exponent_append, BitVec.ofInt_natCast, BitVec.toNat_ofNat]
  exact Nat.mod_eq_of_lt normal

/-- The word of a dyadic rational with a mantissa of 24 bits stands for it, where its exponent is that of a normal number
(30_encoding.md R84). -/
theorem f32Value_f32Scaled (small : m.natAbs < 2 ^ 24) {k : Int}
    (normal : m ≠ 0 → -127 < m.natAbs.log2 + k ∧ m.natAbs.log2 + k < 128) : f32Value (f32Scaled m k) = some (m * 2 ^ k : ℚ) := by
  rcases eq_or_ne m 0 with rfl | hm
  · simp [f32Scaled, f32Value]
  obtain ⟨lo, hi⟩ := normal hm
  obtain ⟨x, hx⟩ : ∃ x : Nat, m.natAbs.log2 + k + 127 = x := ⟨_, (Int.toNat_of_nonneg (by omega)).symm⟩
  have exponent := f32Exponent_f32Scaled hm hx (by omega)
  have nonzero : f32Scaled m k ≠ 0#32 := fun h => by
    rw [h] at exponent
    have : f32Exponent 0#32 = 0 := by decide
    omega
  obtain ⟨leading, below⟩ := significand_bounds (Int.natAbs_ne_zero.mpr hm)
  have fraction : (2 ^ 23 + f32Fraction (f32Scaled m k) : ℚ) = significand m.natAbs := by
    have split : 2 ^ 23 + significand m.natAbs % 2 ^ 23 = significand m.natAbs := by omega
    rw [f32Scaled_eq hm, f32Fraction_append, BitVec.toNat_ofNat]
    exact_mod_cast split
  have scaled : (significand m.natAbs : ℚ) * 2 ^ ((x : Int) - 150) = m.natAbs * 2 ^ k := by
    have whole : (significand m.natAbs : ℚ) * 2 ^ m.natAbs.log2 = m.natAbs * 2 ^ 23 := by
      exact_mod_cast significand_mul_two_pow_log2 small
    rw [show (x : Int) - 150 = m.natAbs.log2 + (k - 23) by omega, zpow_add₀ two_ne_zero, zpow_sub₀ two_ne_zero, zpow_natCast,
      ← mul_assoc, whole]
    field_simp
  rw [f32Value, if_neg nonzero, exponent, if_neg (by omega), fraction, mul_assoc, scaled, ← mul_assoc, f32Scaled_eq hm,
    f32Sign_append, signBit_mul_natAbs]

end

/-! The conversion of an integer -/

/-- The leading one of an integer below `2 ^ n` stands below bit `n`. -/
theorem log2_lt_of_lt {a n : Nat} (ha : a ≠ 0) (h : a < 2 ^ n) : a.log2 < n := (Nat.log2_lt ha).mpr h

/-- Settles O38: an integer of the domain is a mantissa of 24 bits times a power of two. -/
theorem f32IsExactOnItsDomain : Obligations.F32IsExactOnItsDomain := by
  intro v m k hv hm below
  obtain ⟨d, hd, rfl⟩ : ∃ d : Int, d.natAbs = m ∧ d * 2 ^ k = v := by
    rcases Int.natAbs_eq v with h | h
    · exact ⟨m, rfl, by rw [h, hv]; push_cast; ring⟩
    · exact ⟨-m, by simp, by rw [h, hv]; push_cast; ring⟩
  subst hd
  rw [f32_mul_two_pow, f32Value_f32Scaled hm]
  · push_cast
    simp
  · intro nonzero
    have ha := Int.natAbs_ne_zero.mpr nonzero
    rw [hv] at below
    have := log2_lt_of_lt (Nat.mul_ne_zero ha (Nat.two_pow_pos k).ne') below
    rw [log2_mul_two_pow ha] at this
    omega

/-- The conversion of a 24-bit integer stands for it. -/
theorem f32Value_f32 {v : Int} (h : v.natAbs < 2 ^ 24) : f32Value (f32 v) = some (v : ℚ) :=
  f32IsExactOnItsDomain v v.natAbs 0 (by simp) h (h.trans (by decide))

/-- The biased exponent of the word of an integer with magnitude from `2 ^ lo` up and below `2 ^ (hi + 1)`, or +0.0 for 0. -/
theorem f32Exponent_f32_range {v : Int} {lo hi : Nat} (lower : v ≠ 0 → 2 ^ lo ≤ v.natAbs) (upper : v.natAbs < 2 ^ (hi + 1))
    (normal : hi + 127 < 256) : f32 v = 0#32 ∨ (lo + 127 ≤ f32Exponent (f32 v) ∧ f32Exponent (f32 v) ≤ hi + 127) := by
  rcases eq_or_ne v 0 with rfl | hv
  · exact .inl f32_zero
  have ha := Int.natAbs_ne_zero.mpr hv
  have lo' := (Nat.le_log2 ha).mpr (lower hv)
  have hi' := log2_lt_of_lt ha upper
  have exponent : f32Exponent (f32 v) = v.natAbs.log2 + 127 := by
    rw [f32_eq_f32Scaled]
    exact f32Exponent_f32Scaled hv (by push_cast; ring) (by omega)
  exact .inr (by omega)

end Sys2Proof.Machine

/-! PROOFS. The laws of the three formats: DIRECT (41_direct.md R122, R123) and block floating point (42_bfp.md R134, R138 to R141), and the
range of every output word (30_encoding.md R85). -/

namespace Sys2Proof.Machine

/-! DIRECT -/

/-- Settles O40: the two halves come back from two's complement, and their words stand for them. -/
theorem directRoundTripIsExact : Obligations.DirectRoundTripIsExact := by
  intro a b aLo aHi bLo bHi
  have decoded : directDecode (directWord a b) = (a, b) := by
    rw [directDecode_directWord, toInt_ofInt16 aLo aHi, toInt_ofInt16 bLo bHi]
  refine ⟨decoded, ?_, ?_⟩
  · rw [directOutputs, decoded]
    exact f32Value_f32 (by omega)
  · rw [directOutputs, decoded]
    exact f32Value_f32 (by omega)

/-- A half of a DIRECT word has magnitude at most `2 ^ 15` (41_direct.md R120). -/
theorem natAbs_toInt16_le (x : BitVec 16) : x.toInt.natAbs ≤ 2 ^ 15 := by
  have lo := x.le_toInt
  have hi := x.toInt_lt
  omega

/-- The output word of a half determines the half. -/
theorem f32_toInt16_inj {x y : BitVec 16} : x = y ↔ f32 x.toInt = f32 y.toInt := by
  refine ⟨fun h => by rw [h], fun h => BitVec.eq_of_toInt_eq ?_⟩
  have hx := natAbs_toInt16_le x
  have hy := natAbs_toInt16_le y
  have value := congrArg f32Value h
  rw [f32Value_f32 (by omega), f32Value_f32 (by omega)] at value
  exact_mod_cast Option.some.inj value

/-- Settles O41: each output is the word of its own half alone, and determines it. -/
theorem directLanesAreIndependent : Obligations.DirectLanesAreIndependent := fun _ _ => ⟨f32_toInt16_inj, f32_toInt16_inj⟩

/-! The components of a block-floating-point word -/

/-- A component of a sign, a magnitude and an exponent has the magnitude scaled (42_bfp.md R131 to R133). -/
theorem natAbs_component (sign : Bool) (mag exp : Nat) :
    (signedMantissa sign mag * 2 ^ bfpScale exp).natAbs = mag * 2 ^ bfpScale exp := by
  rw [Int.natAbs_mul, signedMantissa_natAbs, Int.natAbs_pow]
  rfl

/-- Settles O46: both components are a signed mantissa times one power of two. -/
theorem oneExponentScalesBothComponents : Obligations.OneExponentScalesBothComponents := by
  intro m e w
  refine ⟨_, rfl, ?ratio, natAbs_component _ _ _, natAbs_component _ _ _⟩
  case ratio =>
    simp only [bfpDecode]
    ring

section
variable {sign : Bool} {mag exp maxMag maxExp : Nat}

/-- A component that is not 0 is at least the least scale (42_bfp.md R134). -/
theorem le_natAbs_component (h : signedMantissa sign mag * 2 ^ bfpScale exp ≠ 0) :
    2 ^ 10 ≤ (signedMantissa sign mag * 2 ^ bfpScale exp).natAbs := by
  have nonzero := Int.natAbs_ne_zero.mpr h
  rw [natAbs_component] at nonzero ⊢
  calc 2 ^ 10 ≤ 2 ^ bfpScale exp := Nat.pow_le_pow_right (by decide) (Nat.le_add_left 10 exp)
    _ ≤ mag * 2 ^ bfpScale exp := Nat.le_mul_of_pos_left _ (Nat.pos_of_ne_zero (left_ne_zero_of_mul nonzero))

/-- A component is at most the largest magnitude times the largest scale (42_bfp.md R134). -/
theorem natAbs_component_le (hmag : mag ≤ maxMag) (hexp : exp ≤ maxExp) :
    (signedMantissa sign mag * 2 ^ bfpScale exp).natAbs ≤ maxMag * 2 ^ (maxExp + 10) := by
  rw [natAbs_component]
  exact Nat.mul_le_mul hmag (Nat.pow_le_pow_right (by decide) (Nat.add_le_add_right hexp 10))

end

/-- The range of both components of a word: its magnitudes and its exponent fit their widths (42_bfp.md R134). -/
theorem bfpDecode_range {m e bound : Nat} (hbound : (2 ^ (m - 1) - 1) * 2 ^ (2 ^ e - 1 + 10) < bound) (w : Word) :
    ∀ v ∈ [(bfpDecode m e w).1, (bfpDecode m e w).2], v ≠ 0 →
      2 ^ 10 ≤ v.natAbs ∧ v.natAbs ≤ (2 ^ (m - 1) - 1) * 2 ^ (2 ^ e - 1 + 10) ∧ v.natAbs < bound := by
  obtain ⟨exp, imMag, reMag⟩ := bfpFields_fits m e w
  have range {sign : Bool} {mag : Nat} (hmag : mag < 2 ^ (m - 1))
      (nonzero : signedMantissa sign mag * 2 ^ bfpScale (bfpFields m e w).exp ≠ 0) :=
    have upper := natAbs_component_le (sign := sign) (Nat.le_sub_one_of_lt hmag) (Nat.le_sub_one_of_lt exp)
    And.intro (le_natAbs_component nonzero) (And.intro upper (upper.trans_lt hbound))
  simp only [List.forall_mem_cons, List.not_mem_nil, false_imp_iff, implies_true, and_true]
  exact ⟨range reMag, range imMag⟩

/-- Settles O47: the range of the components, with the largest fields of each format. -/
theorem componentRange : Obligations.ComponentRange := fun w =>
  ⟨bfpDecode_range (m := 9) (e := 5) (by norm_num) w, bfpDecode_range (m := 12) (e := 6) (by norm_num) w⟩

/-! The range of the output words (30_encoding.md R85) -/

/-- The output words of DIRECT are +0.0 or have a biased exponent from 127 to 142. -/
theorem f32Exponent_toInt16 (x : BitVec 16) :
    f32 x.toInt = 0#32 ∨ (127 ≤ f32Exponent (f32 x.toInt) ∧ f32Exponent (f32 x.toInt) ≤ 142) :=
  f32Exponent_f32_range (lo := 0) (hi := 15) (fun h => Int.natAbs_pos.mpr h) ((natAbs_toInt16_le x).trans_lt (by decide)) (by decide)

/-- The output words of a component below `2 ^ 84` are +0.0 or have a biased exponent from 137 to 210. -/
theorem f32Exponent_component {v : Int} (range : v ≠ 0 → 2 ^ 10 ≤ v.natAbs ∧ v.natAbs < 2 ^ 84) :
    f32 v = 0#32 ∨ (137 ≤ f32Exponent (f32 v) ∧ f32Exponent (f32 v) ≤ 210) := by
  refine f32Exponent_f32_range (lo := 10) (hi := 83) (fun h => (range h).1) ?_ (by decide)
  rcases eq_or_ne v 0 with rfl | h
  · decide
  · exact (range h).2

/-- Settles O39: the words of 16-bit halves, and of components in the ranges of O47. -/
theorem outputsAreZeroOrNormal : Obligations.OutputsAreZeroOrNormal := by
  intro f w
  obtain ⟨range95, range126⟩ := componentRange w
  simp only [List.forall_mem_cons, List.not_mem_nil, false_imp_iff, implies_true, and_true] at range95 range126 ⊢
  cases f with
  | direct =>
    exact ⟨(f32Exponent_toInt16 _).imp_right fun h => .inl ⟨rfl, h⟩, (f32Exponent_toInt16 _).imp_right fun h => .inl ⟨rfl, h⟩⟩
  | bfp95 =>
    have word {v : Int} (range : v ≠ 0 → 2 ^ 10 ≤ v.natAbs ∧ v.natAbs ≤ 255 * 2 ^ 41 ∧ v.natAbs < 2 ^ 49) :=
      f32Exponent_component fun h => ⟨(range h).1, (range h).2.2.trans (by norm_num)⟩
    exact ⟨(word range95.1).imp_right fun h => .inr ⟨nofun, h⟩, (word range95.2).imp_right fun h => .inr ⟨nofun, h⟩⟩
  | bfp126 =>
    have word {v : Int} (range : v ≠ 0 → 2 ^ 10 ≤ v.natAbs ∧ v.natAbs ≤ 2047 * 2 ^ 73 ∧ v.natAbs < 2 ^ 84) :=
      f32Exponent_component fun h => ⟨(range h).1, (range h).2.2⟩
    exact ⟨(word range126.1).imp_right fun h => .inr ⟨nofun, h⟩, (word range126.2).imp_right fun h => .inr ⟨nofun, h⟩⟩

/-! The fields of a word -/

/-- Two sets of fields are equal field by field. -/
theorem BfpFields.eq_of_fields {g g' : BfpFields} (exp : g.exp = g'.exp) (imMag : g.imMag = g'.imMag) (imS : g.imS = g'.imS)
    (reMag : g.reMag = g'.reMag) (reS : g.reS = g'.reS) : g = g' := by
  cases g
  cases g'
  simp only [BfpFields.mk.injEq]
  exact ⟨exp, imMag, imS, reMag, reS⟩

/-- A flag is read back from its digit. -/
theorem decide_toNat_eq_one (b : Bool) : decide (b.toNat = 1) = b := by
  cases b <;> rfl

/-- Settles O42: the word is the sum of its fields, of which each is the digits between the ones below and above it. -/
theorem bfpFieldsRoundTrip : Obligations.BfpFieldsRoundTrip := by
  intro m e g format fits
  have sum := bfpWord_toNat format fits
  obtain ⟨exp, imMag, reMag⟩ := fits
  have reS := g.reS.toNat_lt
  have imS := g.imS.toNat_lt
  have sign {k : Nat} {b : Bool} (h : (bfpWord m e g).toNat / 2 ^ k % 2 = b.toNat) : (bfpWord m e g).getLsbD k = b := by
    rw [getLsbD_eq_decide_div, h, decide_toNat_eq_one]
  rcases format with h | h <;> obtain ⟨rfl, rfl⟩ := Prod.mk.inj h
  all_goals
    norm_num at exp imMag reMag sum
    refine BfpFields.eq_of_fields ?_ ?_ (sign ?_) ?_ (sign ?_)
    · rw [bfpFields_exp]; omega
    · rw [bfpFields_imMag]; omega
    · omega
    · rw [bfpFields_reMag]; omega
    · omega

/-! One sign bit set (42_bfp.md R140) -/

section
variable {w : Word} {k : Nat}

/-- Setting a bit outside a field leaves the field. -/
theorem extractLsb'_or_twoPow {start len : Nat} (outside : k < start ∨ start + len ≤ k) :
    BitVec.extractLsb' start len (w ||| BitVec.twoPow 32 k) = BitVec.extractLsb' start len w := by
  refine BitVec.eq_of_getLsbD_eq fun i hi => ?_
  have other : k ≠ start + i := by omega
  simp [BitVec.getLsbD_extractLsb', BitVec.getLsbD_twoPow, other]

/-- Setting another bit leaves a bit. -/
theorem getLsbD_or_twoPow_ne {i : Nat} (other : k ≠ i) : (w ||| BitVec.twoPow 32 k).getLsbD i = w.getLsbD i := by
  simp [BitVec.getLsbD_twoPow, other]

/-- Setting a bit sets it. -/
theorem getLsbD_or_twoPow_self (hk : k < 32) : (w ||| BitVec.twoPow 32 k).getLsbD k = true := by
  simp [hk]

end

/-- A signed mantissa with its sign bit set is the negation of the one without (42_bfp.md R131). -/
theorem signedMantissa_true (mag : Nat) : signedMantissa true mag = -signedMantissa false mag := rfl

section
variable {m e : Nat} {w : Word}

/-- Setting the real sign bit sets that field alone. -/
theorem bfpFields_or_reS (hm : 0 < m) (inside : e + 2 * m ≤ 32) :
    bfpFields m e (w ||| BitVec.twoPow 32 (e + 2 * m - 1)) = { bfpFields m e w with reS := true } := by
  refine BfpFields.eq_of_fields ?_ ?_ ?_ ?_ (getLsbD_or_twoPow_self (by omega))
  · exact congrArg BitVec.toNat (extractLsb'_or_twoPow (by omega))
  · exact congrArg BitVec.toNat (extractLsb'_or_twoPow (by omega))
  · exact getLsbD_or_twoPow_ne (by omega)
  · exact congrArg BitVec.toNat (extractLsb'_or_twoPow (by omega))

/-- Setting the imaginary sign bit sets that field alone. -/
theorem bfpFields_or_imS (hm : 0 < m) (inside : e + 2 * m ≤ 32) :
    bfpFields m e (w ||| BitVec.twoPow 32 (e + m - 1)) = { bfpFields m e w with imS := true } := by
  refine BfpFields.eq_of_fields ?_ ?_ (getLsbD_or_twoPow_self (by omega)) ?_ ?_
  · exact congrArg BitVec.toNat (extractLsb'_or_twoPow (by omega))
  · exact congrArg BitVec.toNat (extractLsb'_or_twoPow (by omega))
  · exact congrArg BitVec.toNat (extractLsb'_or_twoPow (by omega))
  · exact getLsbD_or_twoPow_ne (by omega)

end

/-- In both formats the fields end inside the word (30_encoding.md R80). -/
theorem format_widths {m e : Nat} (format : (m, e) = (9, 5) ∨ (m, e) = (12, 6)) : 0 < m ∧ 0 < e ∧ e + 2 * m ≤ 32 := by
  rcases format with h | h <;> obtain ⟨rfl, rfl⟩ := Prod.mk.inj h <;> decide

/-- Settles O45: one sign field changes, from a mantissa to its negation. -/
theorem signBitsNegateTheirOwnComponent : Obligations.SignBitsNegateTheirOwnComponent := by
  intro m e w format
  obtain ⟨hm, _, inside⟩ := format_widths format
  refine ⟨fun clear => ?real, fun clear => ?imaginary⟩
  case real =>
    have positive : (bfpFields m e w).reS = false := clear
    simp only [bfpDecode, bfpFields_or_reS hm inside, positive, signedMantissa_true, neg_mul]
  case imaginary =>
    have positive : (bfpFields m e w).imS = false := clear
    simp only [bfpDecode, bfpFields_or_imS hm inside, positive, signedMantissa_true, neg_mul]

/-! One exponent more (42_bfp.md R139) -/

/-- Adding 1 below a carry leaves the digits above. -/
theorem succ_div_two_pow {x e j : Nat} (noCarry : x % 2 ^ e + 1 < 2 ^ e) (above : e ≤ j) : (x + 1) / 2 ^ j = x / 2 ^ j := by
  have quotient : (x + 1) / 2 ^ e = x / 2 ^ e := by
    have split := Nat.mod_add_div x (2 ^ e)
    exact ((Nat.div_mod_unique (Nat.two_pow_pos e)).mpr ⟨by omega, noCarry⟩).1
  rw [← Nat.add_sub_cancel' above, pow_add, ← Nat.div_div_eq_div_mul, ← Nat.div_div_eq_div_mul, quotient]

/-- Adding 1 to an exponent field that has a successor changes that field alone. -/
theorem bfpFields_succ {m e : Nat} {w : Word} (format : (m, e) = (9, 5) ∨ (m, e) = (12, 6)) (succ : w.toNat % 2 ^ e < 2 ^ e - 1) :
    bfpFields m e (w + 1#32) = { bfpFields m e w with exp := (bfpFields m e w).exp + 1 } := by
  obtain ⟨hm, _, _⟩ := format_widths format
  have noCarry : w.toNat % 2 ^ e + 1 < 2 ^ e := by omega
  have number : (w + 1#32).toNat = w.toNat + 1 := by
    rcases format with h | h <;> obtain ⟨rfl, rfl⟩ := Prod.mk.inj h <;> norm_num at noCarry <;> bv_omega
  have above {j : Nat} (hj : e ≤ j) : (w + 1#32).toNat / 2 ^ j = w.toNat / 2 ^ j := number ▸ succ_div_two_pow noCarry hj
  refine BfpFields.eq_of_fields ?_ ?_ ?_ ?_ ?_
  · rw [bfpFields_exp, bfpFields_exp, number, Nat.add_mod, Nat.mod_eq_of_lt (a := 1) (by omega), Nat.mod_eq_of_lt noCarry]
  · rw [bfpFields_imMag, above le_rfl, bfpFields_imMag]
  · rw [bfpFields_imS, getLsbD_eq_decide_div, above (by omega), ← getLsbD_eq_decide_div, bfpFields_imS]
  · rw [bfpFields_reMag, above (by omega), bfpFields_reMag]
  · rw [bfpFields_reS, getLsbD_eq_decide_div, above (by omega), ← getLsbD_eq_decide_div, bfpFields_reS]

/-- The word of twice an integer has one more in its exponent field (30_encoding.md R84). -/
theorem f32_two_mul {v : Int} (hv : v ≠ 0) (small : v.natAbs < 2 ^ 127) : f32 (2 * v) = f32 v + 0x00800000#32 := by
  have exponent : v.natAbs.log2 < 127 := log2_lt_of_lt (Int.natAbs_ne_zero.mpr hv) small
  have word (k : Nat) (hk : k < 2) : (f32Scaled v k).toNat =
      (signBit v).toNat * 2 ^ 31 + (v.natAbs.log2 + k + 127) * 2 ^ 23 + (BitVec.ofNat 23 (significand v.natAbs)).toNat := by
    have cast : (v.natAbs.log2 + k + 127 : Int) = (v.natAbs.log2 + k + 127 : Nat) := by push_cast; rfl
    rw [f32Scaled_eq hv, append_toNat, append_toNat, cast, BitVec.ofInt_natCast, BitVec.toNat_ofNat,
      Nat.mod_eq_of_lt (by omega : v.natAbs.log2 + k + 127 < 2 ^ 8)]
    ring
  have one := word 1 (by decide)
  have zero := word 0 (by decide)
  have doubled : f32 (2 * v) = f32Scaled v (1 : Nat) := by rw [← f32_mul_two_pow, pow_one, mul_comm]
  have plain : f32 v = f32Scaled v (0 : Nat) := by rw [← f32_mul_two_pow, pow_zero, mul_one]
  rw [doubled, plain]
  have sign := (signBit v).isLt
  have fraction := (BitVec.ofNat 23 (significand v.natAbs)).isLt
  apply BitVec.eq_of_toNat_eq
  rw [BitVec.toNat_add, one, zero]
  simp only [BitVec.toNat_ofNat] at fraction ⊢
  omega

/-- Both components of every word are below `2 ^ 127` (42_bfp.md R134). -/
theorem natAbs_bfpDecode_lt {m e : Nat} {w : Word} (format : (m, e) = (9, 5) ∨ (m, e) = (12, 6)) :
    ∀ v ∈ [(bfpDecode m e w).1, (bfpDecode m e w).2], v ≠ 0 → v.natAbs < 2 ^ 127 := by
  obtain ⟨range95, range126⟩ := componentRange w
  rcases format with h | h <;> obtain ⟨rfl, rfl⟩ := Prod.mk.inj h
  · exact fun v hv nonzero => (range95 v hv nonzero).2.2.trans (by norm_num)
  · exact fun v hv nonzero => (range126 v hv nonzero).2.2.trans (by norm_num)

/-- Settles O44: one exponent more doubles the scale of both components, and a doubled integer has one more in its exponent field. -/
theorem exponentStepDoublesBothComponents : Obligations.ExponentStepDoublesBothComponents := by
  intro m e w format succ
  have doubled : bfpDecode m e (w + 1#32) = (2 * (bfpDecode m e w).1, 2 * (bfpDecode m e w).2) := by
    have scale (exp : Nat) : (2 : Int) ^ bfpScale (exp + 1) = 2 * 2 ^ bfpScale exp := by
      rw [bfpScale, bfpScale, Nat.add_right_comm, pow_succ, mul_comm]
    simp only [bfpDecode, bfpFields_succ format succ, scale, mul_left_comm]
  have small := natAbs_bfpDecode_lt (w := w) format
  refine ⟨doubled, fun nonzero => ?real, fun nonzero => ?imaginary⟩
  case real => rw [doubled, f32_two_mul nonzero (small _ (by simp) nonzero)]
  case imaginary => rw [doubled, f32_two_mul nonzero (small _ (by simp) nonzero)]

/-! The signed reading of the exponent (42_bfp.md R138) -/

/-- The scale under the signed reading: the exponent field in two's complement, plus 10. -/
theorem bfpScaleOf_true (e exp : Nat) :
    bfpScaleOf true e exp = (if exp < 2 ^ (e - 1) then (exp : Int) else (exp : Int) - 2 ^ e) + 10 := by
  by_cases h : exp < 2 ^ (e - 1)
  · simp [bfpScaleOf, h, Nat.not_le.mpr h, Config.bias]
  · simp [bfpScaleOf, h, Nat.not_lt.mp h, Config.bias]

/-- A component's word under the signed reading stands for it: its mantissa has 24 bits, and its exponent is that of a normal number. -/
theorem f32Value_signed {m e : Nat} (format : (m, e) = (9, 5) ∨ (m, e) = (12, 6)) (sign : Bool) {mag exp : Nat}
    (hmag : mag < 2 ^ (m - 1)) (hexp : exp < 2 ^ e) :
    f32Value (f32Scaled (signedMantissa sign mag) (bfpScaleOf true e exp)) =
      some ((signedMantissa sign mag : ℚ) * 2 ^ bfpScaleOf true e exp) := by
  have magBound : mag < 2 ^ 11 := by
    rcases format with h | h <;> obtain ⟨rfl, rfl⟩ := Prod.mk.inj h
    · exact hmag.trans (by decide)
    · exact hmag
  have scaleBound : -64 < bfpScaleOf true e exp ∧ bfpScaleOf true e exp < 64 := by
    rw [bfpScaleOf_true]
    rcases format with h | h <;> obtain ⟨rfl, rfl⟩ := Prod.mk.inj h <;> norm_num at hexp ⊢ <;> split <;> omega
  refine f32Value_f32Scaled (by rw [signedMantissa_natAbs]; omega) fun nonzero => ?_
  have := log2_lt_of_lt (Int.natAbs_ne_zero.mpr nonzero) ((signedMantissa_natAbs sign mag).symm ▸ magBound)
  omega

/-- Settles O48: below the sign of the field both readings have one scale, and a scaled mantissa is an integer there; and the words of the
signed reading stand for their dyadic rationals. -/
theorem signedExponentReadingIsExact : Obligations.SignedExponentReadingIsExact := by
  intro m e w format g k
  obtain ⟨exp, imMag, reMag⟩ := bfpFields_fits m e w
  have scale : bfpScaleOf true e g.exp = k := bfpScaleOf_true e g.exp
  refine ⟨fun clear => ?agree, ?real, ?imaginary⟩
  case agree =>
    have unsigned : bfpScaleOf true e g.exp = bfpScale g.exp := by
      rw [bfpScaleOf_true, if_pos clear]
      rfl
    simp only [bfpOutputs, bfpDecode, f32_mul_two_pow]
    rw [unsigned]
  case real => rw [← scale]; exact f32Value_signed format _ reMag exp
  case imaginary => rw [← scale]; exact f32Value_signed format _ imMag exp

end Sys2Proof.Machine

/-! PROOFS. The host's bytes (20_memory.md R52 to R55): the words of a payload and their fields in its bytes; and several blocks (R60). -/

namespace Sys2Proof.Machine

/-! The words of a payload -/

/-- Every whole number of words has its words (20_memory.md R52). -/
theorem exists_payloadWords (order : ByteOrder) {bytes : List Byte} (whole : 4 ∣ bytes.length) :
    ∃ ws, payloadWords order bytes = some ws := by
  induction bytes using payloadWords.induct with
  | case1 => exact ⟨[], rfl⟩
  | case2 b0 b1 b2 b3 rest ih =>
    obtain ⟨ws, hws⟩ := ih (by simp only [List.length_cons] at whole; omega)
    exact ⟨_, by rw [payloadWords, hws]; rfl⟩
  | case3 bytes notEmpty notWord =>
    exfalso
    rcases bytes with _ | ⟨b0, _ | ⟨b1, _ | ⟨b2, _ | ⟨b3, rest⟩⟩⟩⟩
    · exact notEmpty rfl
    · simp at whole
    · simp at whole
    · simp at whole
    · exact notWord b0 b1 b2 b3 rest rfl

/-- All that a payload with words can be: none, or four bytes that make the first word, and a payload with the others. -/
theorem payloadWords_eq_some {order : ByteOrder} {bytes : List Byte} {ws : List Word} (h : payloadWords order bytes = some ws) :
    (bytes = [] ∧ ws = []) ∨ ∃ b0 b1 b2 b3 rest ws', bytes = b0 :: b1 :: b2 :: b3 :: rest ∧
      ws = payloadWord order b0 b1 b2 b3 :: ws' ∧ payloadWords order rest = some ws' := by
  unfold payloadWords at h
  split at h
  · exact .inl ⟨rfl, (Option.some.inj h).symm⟩
  · next b0 b1 b2 b3 rest =>
    obtain ⟨ws', hws', rfl⟩ := Option.map_eq_some_iff.mp h
    exact .inr ⟨b0, b1, b2, b3, rest, ws', rfl, rfl, hws'⟩
  · cases h

/-- A payload has one word for every four bytes, made of them (20_memory.md R52). -/
theorem payloadWords_spec {order : ByteOrder} {bytes : List Byte} {ws : List Word} (h : payloadWords order bytes = some ws) :
    bytes.length = 4 * ws.length ∧
      ∀ sc w, ws[sc]? = some w →
        ∃ b0 b1 b2 b3, bytes[4 * sc]? = some b0 ∧ bytes[4 * sc + 1]? = some b1 ∧ bytes[4 * sc + 2]? = some b2 ∧
          bytes[4 * sc + 3]? = some b3 ∧ w = payloadWord order b0 b1 b2 b3 := by
  induction ws generalizing bytes with
  | nil =>
    rcases payloadWords_eq_some h with ⟨rfl, _⟩ | ⟨_, _, _, _, _, _, _, hws, _⟩
    · simp
    · cases hws
  | cons x xs ih =>
    rcases payloadWords_eq_some h with ⟨_, hws⟩ | ⟨b0, b1, b2, b3, rest, ws', rfl, hws, hrest⟩
    · cases hws
    · cases hws
      obtain ⟨length, words⟩ := ih hrest
      refine ⟨by simp only [List.length_cons]; omega, fun sc w hw => ?_⟩
      cases sc with
      | zero => exact ⟨b0, b1, b2, b3, rfl, rfl, rfl, rfl, (Option.some.inj hw).symm⟩
      | succ sc => exact words sc w hw

/-- Settles O50: the words exist for every whole number of words, and each is made of its own four bytes. -/
theorem recordBytesMakeItsWords : Obligations.RecordBytesMakeItsWords := fun order _ =>
  ⟨exists_payloadWords order, fun _ => payloadWords_spec⟩

/-! The fields of a word in its bytes, under `LE` -/

/-- Settles O51: the little-endian word is a number in base `2 ^ 8`, and each field is some of its digits. -/
theorem littleEndianViews : Obligations.LittleEndianViews := by
  intro b0 b1 b2 b3
  have sum := payloadWord_le_toNat b0 b1 b2 b3
  have h0 := b0.isLt
  have h1 := b1.isLt
  have h2 := b2.isLt
  have h3 := b3.isLt
  refine ⟨?direct, ?exp95, ?reS95, ?exp126, ?reS126⟩
  case direct =>
    have low : BitVec.extractLsb' 0 16 (payloadWord .le b0 b1 b2 b3) = b1 ++ b0 := BitVec.eq_of_toNat_eq (by
      rw [extractLsb'_toNat_eq_div_mod, append_toNat]; omega)
    have high : BitVec.extractLsb' 16 16 (payloadWord .le b0 b1 b2 b3) = b3 ++ b2 := BitVec.eq_of_toNat_eq (by
      rw [extractLsb'_toNat_eq_div_mod, append_toNat]; omega)
    rw [directDecode, low, high]
  case exp95 => rw [bfpFields_exp]; omega
  case reS95 =>
    rw [bfpFields_reS, getLsbD_eq_decide, getLsbD_eq_decide, decide_eq_decide]
    omega
  case exp126 => rw [bfpFields_exp]; omega
  case reS126 =>
    rw [bfpFields_reS, getLsbD_eq_decide, getLsbD_eq_decide, decide_eq_decide]
    omega

/-! Several blocks -/

section
variable {k : Nat} {blocks after : List State} {s t : State}

/-- A step of a block that steps puts its next state in its place. -/
theorem stepAt_of_step (hs : blocks[k]? = some s) (ht : step s = .next t) : stepAt k blocks = .next (blocks.set k t) := by
  simp only [stepAt, hs, ht]

/-- A step of a block that is not there changes nothing. -/
theorem stepAt_of_none (hs : blocks[k]? = none) : stepAt k blocks = .next blocks := by
  simp only [stepAt, hs]

/-- All that a step of one block can be. -/
theorem stepAt_cases (h : stepAt k blocks = .next after) :
    (blocks[k]? = none ∧ after = blocks) ∨ ∃ s t, blocks[k]? = some s ∧ step s = .next t ∧ after = blocks.set k t := by
  cases hs : blocks[k]? with
  | none => exact .inl ⟨rfl, (Host.Outcome.next.inj ((stepAt_of_none hs).symm.trans h)).symm⟩
  | some s =>
    cases ht : step s with
    | next t => exact .inr ⟨s, t, rfl, ht, (Host.Outcome.next.inj ((stepAt_of_step hs ht).symm.trans h)).symm⟩
    | fault e => simp [stepAt, hs, ht] at h
    | refused e => simp [stepAt, hs, ht] at h

/-- A step of one block leaves the others (20_memory.md R60). -/
theorem stepAt_getElem?_ne {j : Nat} (h : stepAt k blocks = .next after) (other : j ≠ k) : after[j]? = blocks[j]? := by
  rcases stepAt_cases h with ⟨_, rfl⟩ | ⟨s, t, _, _, rfl⟩
  · rfl
  · exact List.getElem?_set_ne other.symm

end

/-- Settles O54: a step of one block sets one place of the list, and reads that place alone. -/
theorem blocksShareNothing : Obligations.BlocksShareNothing := by
  refine ⟨fun k blocks s t hs ht => ⟨_, stepAt_of_step hs ht, rfl, ?own⟩, fun j k blocks after => stepAt_getElem?_ne, ?commute⟩
  case own =>
    obtain ⟨inside, _⟩ := List.getElem?_eq_some_iff.mp hs
    exact List.getElem?_set_self inside
  case commute =>
    intro j k a b c other hj hk
    have readK : b[k]? = a[k]? := stepAt_getElem?_ne hj other.symm
    rcases stepAt_cases hk with ⟨noBlock, rfl⟩ | ⟨s, t, hs, ht, rfl⟩
    · exact ⟨a, stepAt_of_none (readK ▸ noBlock), hj⟩
    have stepK := stepAt_of_step (readK ▸ hs) ht
    have readJ : (a.set k t)[j]? = a[j]? := stepAt_getElem?_ne stepK other
    refine ⟨_, stepK, ?_⟩
    rcases stepAt_cases hj with ⟨noBlock, rfl⟩ | ⟨s', t', hs', ht', rfl⟩
    · exact stepAt_of_none (readJ.trans noBlock)
    · rw [stepAt_of_step (readJ.trans hs') ht', List.set_comm _ _ other]

end Sys2Proof.Machine

/-! PROOFS. The port realisation (70_reset_and_hazards.md R199 to R201): its invariant, what it offers and for how long, its level `err`
(60_exceptions.md R167), and that at its response stream it is the transaction machine. -/

namespace Sys2Proof.Machine

/-! The parts of an edge -/

/-- An edge with `rst` low takes a response, accepts a command and works, in this order (70_reset_and_hazards.md R200). -/
theorem Port.tick_of_noRst (p : Port) {i : PinsIn} (h : i.rst = false) : p.tick i = ((p.take i).accept i).work := by
  simp [Port.tick, h]

/-- An edge with `rst` high clears (70_reset_and_hazards.md R200). -/
theorem Port.tick_of_rst (p : Port) {i : PinsIn} (h : i.rst = true) : p.tick i = p.clear := by
  simp [Port.tick, h]

/-- Without a response taken `take` does nothing. -/
theorem Port.take_of_not_taken {p : Port} {i : PinsIn} (h : p.taken i = false) : p.take i = p := by
  simp [Port.take, h]

section
variable {p : Port}

/-- Taking a response keeps a port state one. -/
theorem Port.inv.take (h : p.inv) (i : PinsIn) : (p.take i).inv := by
  obtain ⟨regs, commands, one⟩ := h
  obtain ⟨hregs, hcmd, _, _, hrsp⟩ := p.take_core i
  refine ⟨hregs ▸ regs, hcmd ▸ commands, ?_⟩
  rw [hrsp]
  split
  · simp only [List.length_drop]
    omega
  · exact one

/-- Accepting a command keeps a port state one. -/
theorem Port.inv.accept (h : p.inv) (i : PinsIn) : (p.accept i).inv := by
  obtain ⟨regs, commands, one⟩ := h
  obtain ⟨hregs, hrsp, _, hcmd⟩ := p.accept_core i
  refine ⟨hregs ▸ regs, ?_, hrsp ▸ one⟩
  rw [hcmd]
  intro e he
  rcases List.mem_append.mp he with he | he
  · exact commands e he
  · split at he
    · rw [List.mem_singleton.mp he]
      nofun
    · cases he

/-- The first of the waiting commands, in a port state. -/
theorem Port.inv.first_waiting (h : p.inv) (waiting : p.core.cmdIn ≠ []) :
    ∃ w rest i, p.core.cmdIn = .cmd w :: rest ∧ decode p.core.regs.cfgFmt w = .ok i := by
  obtain ⟨regs, commands, _⟩ := h
  match hc : p.core.cmdIn with
  | [] => exact absurd hc waiting
  | .rst :: rest => exact absurd rfl (commands .rst (by simp [hc]))
  | .cmd w :: rest =>
    obtain ⟨i, hd⟩ := regs.decode_ok w
    exact ⟨w, rest, i, rfl, hd⟩

/-- All that work can do to the machine: nothing, or what the machine does with its first waiting command. -/
theorem Port.inv.work_cases (h : p.inv) :
    p.work.core = p.core ∨
      ∃ w rest i, p.core.cmdIn = .cmd w :: rest ∧ p.core.rspOut = [] ∧ decode p.core.regs.cfgFmt w = .ok i ∧
        p.work.core = ⟨(Machine.runOf i p.core.regs).1, rest, [(Machine.runOf i p.core.regs).2]⟩ := by
  by_cases hc : p.core.cmdIn = []
  · exact .inl (by rw [Port.work_hold (.inl hc)])
  by_cases hr : p.core.rspOut = []
  · by_cases hw : p.wait = 0
    · obtain ⟨w, rest, i, hcmd, hd⟩ := h.first_waiting hc
      exact .inr ⟨w, rest, i, hcmd, hr, hd, Port.work_answer hcmd hr hw hd⟩
    · exact .inl (by rw [Port.work_wait hc hr hw])
  · exact .inl (by rw [Port.work_hold (.inr hr)])

/-- Work keeps a port state one. -/
theorem Port.inv.work (h : p.inv) : p.work.inv := by
  rcases h.work_cases with same | ⟨w, rest, i, hc, _, _, answered⟩
  · unfold Port.inv
    rw [same]
    exact h
  · obtain ⟨regs, commands, _⟩ := h
    unfold Port.inv
    rw [answered]
    refine ⟨regs.runOf i, fun e he => commands e ?_, le_rfl⟩
    rw [hc]
    exact List.mem_cons_of_mem _ he

/-- An edge keeps a port state one. -/
theorem Port.inv.tick (h : p.inv) (i : PinsIn) : (p.tick i).inv := by
  cases hrst : i.rst with
  | true =>
    unfold Port.inv
    rw [p.tick_of_rst hrst, Port.clear_core]
    exact ⟨resetSatisfiesInvariants, nofun, Nat.zero_le 1⟩
  | false =>
    rw [p.tick_of_noRst hrst]
    exact ((h.take i).accept i).work

end

/-- After power-on reset the port is in a port state. -/
theorem Port.inv_reset : Port.reset.inv := ⟨resetSatisfiesInvariants, nofun, Nat.zero_le 1⟩

/-- Settles O56: each part of an edge keeps the invariant. -/
theorem portKeepsItsInvariant : Obligations.PortKeepsItsInvariant := ⟨Port.inv_reset, fun _ i h => h.tick i⟩

/-! What is offered -/

/-- The signals but `cmd_ready` show the registers and the offered responses alone (70_reset_and_hazards.md R200). -/
theorem Port.pins_eq_of_core {p q : Port} (regs : q.core.regs = p.core.regs) (rspOut : q.core.rspOut = p.core.rspOut) (rst : Bool) :
    q.pins rst = { p.pins rst with cmdReady := (q.pins rst).cmdReady } := by
  have valid : q.rspValid rst = p.rspValid rst := by simp only [Port.rspValid, rspOut]
  have shown : q.shown rst = p.shown rst := by simp only [Port.shown, valid, rspOut]
  simp only [Port.pins, valid, shown, regs]

/-- A response is offered exactly where one is held, while `rst` is low (70_reset_and_hazards.md R200). -/
theorem Port.rspValid_iff (p : Port) : p.rspValid false = true ↔ p.core.rspOut ≠ [] := by
  simp [Port.rspValid]

/-- Settles O57: with a response offered and not taken, an edge can only accept a command. -/
theorem offeredResponseIsStable : Obligations.OfferedResponseIsStable := by
  intro p i _ hrst offered notReady
  have held := (p.accept_core i).2.1 ▸ p.rspValid_iff.mp offered
  have tick : p.tick i = p.accept i := by
    rw [p.tick_of_noRst hrst, Port.take_of_not_taken (by simp [Port.taken, notReady]), Port.work_hold (.inr held)]
  obtain ⟨regs, rspOut, _⟩ := p.accept_core i
  rw [tick]
  exact Port.pins_eq_of_core regs rspOut false

/-- Settles O58: under `rst` both handshakes are low, and the edge leaves the reset state without a stall. -/
theorem portResetClearsEverything : Obligations.PortResetClearsEverything := by
  intro p i hrst
  have cleared := p.tick_of_rst hrst
  refine ⟨by simp [Port.pins, Port.cmdReady, hrst], by simp [Port.pins, Port.rspValid, hrst],
    by simp [Port.accepts, Port.cmdReady, hrst], by simp [Port.taken, Port.rspValid, hrst], by rw [cleared, Port.clear_core],
    ?ready, ?valid⟩
  case ready => simp [cleared, Port.pins, Port.cmdReady, Port.clear]
  case valid => simp [cleared, Port.pins, Port.rspValid, Port.clear]

/-! The answer to a waiting command -/

/-- An edge with a command waiting and no response offered runs the latency down, or answers (70_reset_and_hazards.md R199). -/
theorem Port.inv.tick_waiting {p : Port} (h : p.inv) (waiting : p.core.cmdIn ≠ []) (free : p.core.rspOut = []) {i : PinsIn}
    (hrst : i.rst = false) :
    (p.wait ≠ 0 → (p.tick i).wait = p.wait - 1 ∧ (p.tick i).core.cmdIn ≠ [] ∧ (p.tick i).core.rspOut = []) ∧
      (p.wait = 0 → (p.tick i).core.rspOut ≠ []) := by
  obtain ⟨_, rspOut, wait, cmdIn⟩ := p.accept_core i
  have waiting' : (p.accept i).core.cmdIn ≠ [] := by simp [cmdIn, waiting]
  have free' : (p.accept i).core.rspOut = [] := rspOut.trans free
  rw [p.tick_of_noRst hrst, Port.take_of_not_taken (by simp [Port.taken, Port.rspValid, free])]
  refine ⟨fun hwait => ?down, fun hwait => ?answered⟩
  case down =>
    rw [Port.work_wait waiting' free' (wait.symm ▸ hwait)]
    exact ⟨by rw [wait], waiting', free'⟩
  case answered =>
    obtain ⟨w, rest, j, hc, hd⟩ := (h.accept i).first_waiting waiting'
    rw [Port.work_answer hc free' (wait.trans hwait) hd]
    nofun

/-- Settles O59: the latency runs down at each edge, and at the last one the command is answered. -/
theorem waitingCommandIsAnswered : Obligations.WaitingCommandIsAnswered := by
  intro p ins h waiting free length noRst
  induction ins generalizing p with
  | nil => simp at length
  | cons i ins ih =>
    obtain ⟨down, answered⟩ := h.tick_waiting waiting free (noRst i (by simp))
    rw [List.length_cons, Nat.add_right_cancel_iff] at length
    by_cases hwait : p.wait = 0
    · obtain rfl := List.length_eq_zero_iff.mp (length.trans hwait)
      exact answered hwait
    · obtain ⟨wait, waiting', free'⟩ := down hwait
      exact ih (p.tick i) (h.tick i) waiting' free' (by omega) fun j hj => noRst j (by simp [hj])

/-! The level `err` -/

/-- The level `err` shows `ERR`, while `rst` is low (60_exceptions.md R167). -/
theorem Port.pins_err (p : Port) : (p.pins false).err = decide (p.core.regs.err ≠ 0#8) := by
  simp [Port.pins, Regs.errLine]

/-- A command that makes `ERR` nonzero is answered ERROR (60_exceptions.md R163). -/
theorem kind_of_runOf_raises {i : Instr} {r : Regs} (before : r.err = 0#8) (after : (runOf i r).1.err ≠ 0#8) :
    (runOf i r).2.kind = .error := by
  have h := runOf_effect i r
  generalize runOf i r = result at h after
  cases h with
  | reset => exact absurd rfl after
  | kept rsp => exact absurd before after
  | raised code => rfl
  | passBegun fmt bw n => exact absurd before after
  | sampled re im => exact absurd (by simpa using before) after

/-- All that an edge with `rst` low can do to the registers: nothing, or what a command does that was waiting or is offered at this
edge, whose response is then offered. -/
theorem Port.inv.tick_cases {p : Port} (h : p.inv) {i : PinsIn} (hrst : i.rst = false) :
    (p.tick i).core.regs = p.core.regs ∨
      ∃ w j, (.cmd w ∈ p.core.cmdIn ∨ w = i.command) ∧ decode p.core.regs.cfgFmt w = .ok j ∧
        (p.tick i).core.regs = (Machine.runOf j p.core.regs).1 ∧ (p.tick i).core.rspOut = [(Machine.runOf j p.core.regs).2] := by
  obtain ⟨regs₁, cmdIn₁, _⟩ := p.take_core i
  obtain ⟨regs₂, _, _, cmdIn₂⟩ := (p.take i).accept_core i
  have regs := regs₂.trans regs₁
  rw [cmdIn₁] at cmdIn₂
  rw [p.tick_of_noRst hrst]
  rcases ((h.take i).accept i).work_cases with same | ⟨w, rest, j, hc, _, hd, answered⟩
  · exact .inl (by rw [same, regs])
  · rw [regs] at hd answered
    refine .inr ⟨w, j, ?_, hd, by rw [answered], by rw [answered]⟩
    have first : .cmd w ∈ p.core.cmdIn ++ (if (p.take i).accepts i then [.cmd i.command] else []) := by simp [← cmdIn₂, hc]
    rcases List.mem_append.mp first with hmem | hmem
    · exact .inl hmem
    · split at hmem
      · exact .inr (HostEvent.cmd.inj (List.mem_singleton.mp hmem))
      · cases hmem

/-- Settles O60: `ERR` changes at an edge only by the answer to a command, which raises it with ERROR and lowers it as RESET alone. -/
theorem errorLevelFollowsTheResponse : Obligations.ErrorLevelFollowsTheResponse := by
  intro p i h
  refine ⟨p.pins_err, fun before after => ?rises, fun before hrst notOffered notWaiting => ?holds⟩
  case rises =>
    rw [Port.pins_err, decide_eq_false_iff_not, not_not] at before
    rw [Port.pins_err, decide_eq_true_eq] at after
    cases hrst : i.rst with
    | true =>
      rw [p.tick_of_rst hrst, Port.clear_core] at after
      exact absurd rfl after
    | false =>
      rcases h.tick_cases hrst with same | ⟨w, j, _, _, regs, rspOut⟩
      · exact absurd (same ▸ before) after
      · have kind := kind_of_runOf_raises before (regs ▸ after)
        exact ⟨(Port.rspValid_iff _).mpr (by simp [rspOut]), by simp [Port.pins, Port.shown_offered rspOut, kind, ResponseKind.code]⟩
  case holds =>
    rw [Port.pins_err, decide_eq_true_eq] at before ⊢
    rcases h.tick_cases hrst with same | ⟨w, j, source, hd, regs, _⟩
    · rwa [same]
    · have op : Command.op w ≠ 1#3 := source.elim (notWaiting w) fun heq => heq ▸ notOffered
      rwa [regs, runOf_regs_of_error before ((decode_fields hd).1 ▸ op)]

/-! The port and the transaction machine -/

/-- The port with the commands accepted and the responses taken since the last reset, against the transaction machine: the accepted
commands are those answered and those waiting, and for the answered ones the machine gives the registers, the responses taken and
the one offered (20_memory.md R58, 70_reset_and_hazards.md R200). -/
def Port.Refines (p : Port) (accepted : List Command) (taken : List Response) : Prop :=
  ∃ answered waiting : List Command, accepted = answered ++ waiting ∧ p.core.cmdIn = waiting.map .cmd ∧
    answersAll (answered.map .cmd) { regs := p.core.regs, cmdIn := [], rspOut := taken ++ p.core.rspOut }

section
variable {p : Port} {accepted : List Command} {taken : List Response}

/-- The reset state refines the machine of which nothing has been asked. -/
theorem Port.refines_of_reset (h : p.core = State.reset) : p.Refines [] [] :=
  ⟨[], [], rfl, by rw [h]; rfl, by rw [h]; exact (answersAll_nil _).mpr rfl⟩

/-- The response taken is one that was offered. -/
theorem Port.Refines.take (h : p.Refines accepted taken) (i : PinsIn) :
    (p.take i).Refines accepted (if p.taken i then taken ++ p.core.rspOut.take 1 else taken) := by
  obtain ⟨answered, waiting, haccepted, hwaiting, hanswers⟩ := h
  obtain ⟨regs, cmdIn, _, _, rspOut⟩ := p.take_core i
  refine ⟨answered, waiting, haccepted, cmdIn.trans hwaiting, ?_⟩
  rw [regs, rspOut]
  split
  · rwa [List.append_assoc, List.take_append_drop]
  · exact hanswers

/-- The command accepted waits behind the others. -/
theorem Port.Refines.accept (h : p.Refines accepted taken) (i : PinsIn) :
    (p.accept i).Refines (if p.accepts i then accepted ++ [i.command] else accepted) taken := by
  obtain ⟨answered, waiting, rfl, hwaiting, hanswers⟩ := h
  obtain ⟨regs, rspOut, _, cmdIn⟩ := p.accept_core i
  refine ⟨answered, waiting ++ (if p.accepts i then [i.command] else []), ?_, ?_, ?_⟩
  · split <;> simp
  · rw [cmdIn, hwaiting]
    split <;> simp
  · rwa [regs, rspOut]

/-- The command answered is the first of those waiting, and is answered as the machine answers it. -/
theorem Port.Refines.work (h : p.Refines accepted taken) (hinv : p.inv) : p.work.Refines accepted taken := by
  obtain ⟨answered, waiting, rfl, hwaiting, hanswers⟩ := h
  rcases hinv.work_cases with same | ⟨w, rest, i, hc, hr, hd, hwork⟩
  · exact ⟨answered, waiting, rfl, by rw [same, hwaiting], by rwa [same]⟩
  · obtain ⟨_, waiting', rfl, hw, hrest⟩ := List.map_eq_cons_iff.mp (hwaiting.symm.trans hc)
    cases hw
    refine ⟨answered ++ [w], waiting', by simp, by rw [hwork, hrest], ?_⟩
    rw [List.map_append]
    refine (answersAll_snoc_cmd _ w _).mpr ⟨_, i, hanswers, rfl, hd, ?_⟩
    rw [hwork, hr, List.append_nil]

end

/-- Taking a response does not bear on what is accepted. -/
theorem Port.accepts_take (p : Port) (i : PinsIn) : (p.take i).accepts i = p.accepts i := by
  obtain ⟨_, cmdIn, _, stall, _⟩ := p.take_core i
  simp only [Port.accepts, Port.cmdReady, cmdIn, stall]

/-- An edge keeps the refinement. -/
theorem PortTrace.refines_tick {t : PortTrace} (hinv : t.port.inv) (h : t.port.Refines t.accepted t.taken) (i : PinsIn) :
    (t.tick i).port.Refines (t.tick i).accepted (t.tick i).taken := by
  cases hrst : i.rst with
  | true =>
    simp only [PortTrace.tick, hrst, if_true]
    exact Port.refines_of_reset (by rw [t.port.tick_of_rst hrst, Port.clear_core])
  | false =>
    have edge := ((h.take i).accept i).work ((hinv.take i).accept i)
    rw [Port.accepts_take] at edge
    simpa only [PortTrace.tick, hrst, t.port.tick_of_noRst hrst, Bool.false_eq_true, if_false] using edge

/-- Every run of edges keeps the refinement. -/
theorem PortTrace.refines_run (ins : List PinsIn) {t : PortTrace} (hinv : t.port.inv) (h : t.port.Refines t.accepted t.taken) :
    (t.run ins).port.Refines (t.run ins).accepted (t.run ins).taken := by
  induction ins generalizing t with
  | nil => exact h
  | cons i ins ih => exact ih (t := t.tick i) (hinv.tick i) (PortTrace.refines_tick hinv h i)

/-- Settles O55: the refinement holds at power-on and along every run; and the signals show the response offered. -/
theorem portRefinesTheTransactionMachine : Obligations.PortRefinesTheTransactionMachine := by
  refine ⟨fun ins => PortTrace.refines_run ins Port.inv_reset (Port.refines_of_reset rfl), fun p rsp rest offered => ?shown,
    fun p free => ?quiet, rfl, rfl, rfl, rfl, rfl⟩
  case shown =>
    have shown := Port.shown_offered offered
    simp only [Port.pins, shown, and_true]
    exact p.rspValid_iff.mpr (by simp [offered])
  case quiet => simp [Port.pins, Port.rspValid, free]

end Sys2Proof.Machine
